-- ==== Sys2Proof/Word.lean ====
section
/-! DEFINITION. The two word types of the SC-CPU core: the byte of R9 and the index of a register of R21. -/

namespace Sys2Proof

/-- "`byte` means an unsigned 8-bit value, 0 to 255" (R9). Memory cells, registers, `FL`, opcode and
operand bytes are all bytes. -/
abbrev Byte := BitVec 8

/-- The index of one of the eight registers, "indices 0 to 7" (R21). -/
abbrev RegIdx := Fin 8

end Sys2Proof
end

