-- ==== Sys2Proof/Syntax.lean ====
section
/-! DEFINITION. The 13 instructions of R90, one constructor per row of the opcode table.
A handler "receives raw operand bytes (not yet decoded further)" (R86), so a register operand is the whole
operand byte; the meaning checks it, as the spec's `Reg` does. -/

namespace Sys2Proof

/-- An instruction: the opcode of R90 with the operand bytes its format uses (R84). -/
inductive Instr where
  /-- Format Z (R122). -/
  | hlt
  /-- Format RI: register byte, immediate (R126). -/
  | ldi (reg imm : Byte)
  /-- Format R (R130). -/
  | prn (reg : Byte)
  /-- Format RR (R144). -/
  | add (regA regB : Byte)
  /-- Format RR (R148). -/
  | mul (regA regB : Byte)
  /-- Format R (R162). -/
  | push (reg : Byte)
  /-- Format R (R166). -/
  | pop (reg : Byte)
  /-- Format R (R182). -/
  | call (reg : Byte)
  /-- Format Z (R186). -/
  | ret
  /-- Format RR (R202). -/
  | cmp (regA regB : Byte)
  /-- Format R (R210). -/
  | jmp (reg : Byte)
  /-- Format R (R214). -/
  | jeq (reg : Byte)
  /-- Format R (R218). -/
  | jne (reg : Byte)
deriving DecidableEq, Repr

end Sys2Proof
end

