-- ==== Sys2Proof/Decode.lean ====
section
/-! DEFINITION. Opcode bytes and their metadata bits, the decoder and the encoder (R80 to R93). -/

namespace Sys2Proof

/-! ### The 13 opcode bytes (R90) -/

namespace Opc

def hlt : Byte := 0b00000001
def ldi : Byte := 0b10000010
def prn : Byte := 0b01000111
def add : Byte := 0b10100000
def mul : Byte := 0b10100010
def push : Byte := 0b01000101
def pop : Byte := 0b01000110
def call : Byte := 0b01010000
def ret : Byte := 0b00010001
def cmp : Byte := 0b10100111
def jmp : Byte := 0b01010100
def jeq : Byte := 0b01010101
def jne : Byte := 0b01010110

end Opc

/-! ### The metadata bits (R80, R81) -/

/-- `IR[7:6]`: "`operand_count = IR >> 6`" (R80). -/
def operandCount (ir : Byte) : Nat := ir.toNat >>> 6

/-- `IR[4]`: the handler sets `pc` itself and the cycle must not advance it (R81; bit 4, not the letter B: C1). -/
def setsPc (ir : Byte) : Bool := ir.getLsbD 4

/-! ### Decoding -/

/-- Why bytes are no instruction. -/
inductive DecodeError where
  /-- The opcode byte is not one of the 13 (R92). -/
  | illegalOpcode (ir : Byte)
  /-- The byte list ends before the instruction does. The core never meets it: its fetch always delivers three bytes. -/
  | truncated
deriving DecidableEq, Repr

/-- The opcode map: the 13 keys of R90, each with the instruction made of the operand bytes its format uses (R84, R98). -/
def opcodeMap (a b : Byte) : List (Byte × Instr) :=
  [(Opc.hlt, .hlt),
   (Opc.ldi, .ldi a b),
   (Opc.prn, .prn a),
   (Opc.add, .add a b),
   (Opc.mul, .mul a b),
   (Opc.push, .push a),
   (Opc.pop, .pop a),
   (Opc.call, .call a),
   (Opc.ret, .ret),
   (Opc.cmp, .cmp a b),
   (Opc.jmp, .jmp a),
   (Opc.jeq, .jeq a),
   (Opc.jne, .jne a)]

/-- The dispatcher: the instruction whose key is the whole opcode byte (R93). The operand bytes take no part in the
selection, and no other opcode byte decodes (R92). -/
def decodeFetched (ir a b : Byte) : Except DecodeError Instr :=
  match (opcodeMap a b).find? fun row => row.1 == ir with
  | some row => .ok row.2
  | none => .error (.illegalOpcode ir)

/-- Decode the instruction at the head of a byte list and give the bytes after it. "A decoder tells the length
from the opcode byte alone" (R80): `1 + IR[7:6]` bytes are taken. -/
def decode : List Byte → Except DecodeError (Instr × List Byte)
  | [] => .error .truncated
  | ir :: rest =>
    match decodeFetched ir (rest.getD 0 0) (rest.getD 1 0) with
    | .error e => .error e
    | .ok i =>
      if rest.length < operandCount ir then .error .truncated
      else .ok (i, rest.drop (operandCount ir))

/-! ### Encoding -/

/-- The opcode byte of an instruction (R90). -/
def opcodeOf : Instr → Byte
  | .hlt => Opc.hlt
  | .ldi _ _ => Opc.ldi
  | .prn _ => Opc.prn
  | .add _ _ => Opc.add
  | .mul _ _ => Opc.mul
  | .push _ => Opc.push
  | .pop _ => Opc.pop
  | .call _ => Opc.call
  | .ret => Opc.ret
  | .cmp _ _ => Opc.cmp
  | .jmp _ => Opc.jmp
  | .jeq _ => Opc.jeq
  | .jne _ => Opc.jne

/-- The operand bytes of an instruction, in the order they follow the opcode (R84). -/
def Instr.operands : Instr → List Byte
  | .hlt => []
  | .ldi r v => [r, v]
  | .prn r => [r]
  | .add a b => [a, b]
  | .mul a b => [a, b]
  | .push r => [r]
  | .pop r => [r]
  | .call r => [r]
  | .ret => []
  | .cmp a b => [a, b]
  | .jmp r => [r]
  | .jeq r => [r]
  | .jne r => [r]

/-- The bytes of an instruction at ascending addresses: opcode, then its operand bytes (R80, R84). -/
def encode (i : Instr) : List Byte := opcodeOf i :: i.operands

/-! ### The opcode table's numbering -/

/-- Byte `k` of a word whose bit 0 is the least significant bit of the first byte, every bit from `nbits` on
read as 0. -/
def tableByte (nbits w k : Nat) : Byte := BitVec.ofNat 8 (w % 2 ^ nbits / 2 ^ (8 * k))

/-- The instruction the decoder reads from a word numbered as `spec/opcode_table.json` numbers its bits. -/
def decodeTableWord (nbits w : Nat) : Option Instr :=
  match decodeFetched (tableByte nbits w 0) (tableByte nbits w 1) (tableByte nbits w 2) with
  | .ok i => some i
  | .error _ => none

end Sys2Proof
end

