-- ==== Sys2Proof/Config.lean ====
section
/-! DEFINITION. What is fixed for the machine (R5) and the launch values the source leaves open (R6). -/

namespace Sys2Proof.Config

/-- "ordered sequence of 256 unsigned 8-bit cells" (R5, R50). -/
def memSize : Nat := 256

/-- What a cell that nothing has loaded or written reads as: memory is "zero-initialized" (R50, R70). -/
def memBlank : Byte := 0x00

/-- The greatest `pc` at which a step can fetch its three bytes: `pc + 2` must not exceed 255 (R96, D2). -/
def lastFetch : Nat := 253

/-- "Register 7 is reserved as the Stack Pointer" (R22). -/
def spIndex : RegIdx := 7

/-- "initialized to 0xF4" (R22, R40). -/
def spReset : Byte := 0xF4

/-- `pc` at reset (R40, R272). -/
def pcReset : Nat := 0

/-- The default of the launch parameter `GPR_RESET[0..6]`, seven zero bytes (R6, R40).
DESIGN CHOICE (the spec's own, D5), unsafe: the source states no reset value for R0 to R6. Log 2.
A claim that must not lean on it quantifies over `Launch.gpr`. -/
def gprReset : Vector Byte 7 := #v[0x00, 0x00, 0x00, 0x00, 0x00, 0x00, 0x00]

/-- `FL_RESET`: "any byte 0x00 to 0xFF, unconstrained: a claim must hold for every value" (R6, R31).
A constant with no body: "A model must not substitute 0 for `FL_RESET`". DESIGN CHOICE (the form), safe.
Log 3. -/
opaque flReset : Byte

end Sys2Proof.Config
end

