-- ==== Sys2Proof/Machine/State.lean ====
section
/-! DEFINITION. The state of the core (R20), why a step stops, the causes of a fault (R230), what reset leaves
(R40) and the launch parameters (R41). -/

namespace Sys2Proof.Machine

/-- The 256 cells of R50: the cells that do not read as `Config.memBlank`, by rising address. -/
abbrev Memory := List Host.Cell

/-- The architectural state: "Nothing else persists from one step to the next" (R20). -/
structure State where
  /-- `MEM[0..255]`, code and stack alike (R50, R51). -/
  mem : Memory
  /-- `x[0..7]`; `x[7]` is `SP` (R21, R22). -/
  regs : Vector Byte 8
  /-- The program counter: a natural number, as R25 allows; a run reaches 0 to 256. -/
  pc : Nat
  /-- The flags byte `FL`: `E` bit 0, `G` bit 1, `L` bit 2 (R29). -/
  fl : Byte
  /-- `RUN`, the running flag (R32). -/
  run : Bool
  /-- `FAULT`, the cause code (R33). -/
  fault : BitVec 3
  /-- `OUT`, the bytes PRN has emitted, oldest first (R34). -/
  out : List Byte
deriving DecidableEq, Repr

/-- Why a step gives no next state. The spec's own faults are not here: it describes the state each leaves
(R236), so they are next states. -/
inductive Fault where
  /-- Raised by `step` alone, when `RUN = 0`: a stopped core takes no step (R94, R98, U15). Safe: no step is
  invented. Log 1. -/
  | coreStopped
deriving DecidableEq, Repr

/-- Why an instruction has no meaning. -/
inductive Refusal where
  /-- Kept for an arm of `exec` without a meaning; no arm uses it. Safe. -/
  | notModelled (mnemonic : String)
deriving DecidableEq, Repr

/-- The four faults of R230, each with the info value `raise` carries. -/
inductive Cause where
  /-- `IR` is not one of the 13 opcodes (R231). -/
  | illegalInstruction (ir : Byte)
  /-- The ALU is given an operator other than ADD and MUL (R232). -/
  | unsupportedALUOp (op : Byte)
  /-- An address above 255 is formed (R233). -/
  | addressOutOfRange (addr : Nat)
  /-- An operand byte used as a register number is above 7 (R234). -/
  | registerIndexOutOfRange (b : Byte)
deriving DecidableEq, Repr

/-- The per-step latches `IR`, `operand_a`, `operand_b`: filled by the fetch, dead at the step's end, and no part
of the state (R37). -/
structure Latches where
  ir : Byte
  a : Byte
  b : Byte
deriving DecidableEq, Repr

/-- The launch parameters (R41): `MEM_INIT` as the program's bytes from address 0, `GPR_RESET`, `FL_RESET`. -/
structure Launch where
  program : List Byte
  gpr : Vector Byte 7
  fl : Byte
deriving DecidableEq, Repr

/-- What one instruction or one step answers. -/
abbrev Answer := Host.Outcome State Fault Refusal

/-- The state after reset (R40, R270) with no program placed and the default `GPR_RESET`. -/
def State.reset : State where
  mem := []
  regs := Config.gprReset.push Config.spReset
  pc := Config.pcReset
  fl := Config.flReset
  run := true
  fault := 0
  out := []

end Sys2Proof.Machine
end

