-- ==== Sys2Proof/Machine/Ops.lean ====
section
/-! DEFINITION. The shared operations over memory, registers, output, faults, the fetch and the cycle's advance,
and the launch. Each follows the pseudocode primitive of R10 it is named for. -/

namespace Sys2Proof.Machine

/-! ### Memory as data -/

/-- The byte held at an address; an unlisted address reads as `Config.memBlank` (R50, R60). -/
def Memory.get : Memory → Nat → Byte
  | [], _ => Config.memBlank
  | (a, v) :: m, addr => if a = addr then v else Memory.get m addr

/-- Drop every entry at an address. -/
def Memory.erase (m : Memory) (addr : Nat) : Memory := m.filter fun c => c.1 != addr

/-- Enter a byte before the first entry at a higher address. -/
def Memory.insert : Memory → Nat → Byte → Memory
  | [], addr, v => [(addr, v)]
  | (a, w) :: m, addr, v =>
    if addr < a then (addr, v) :: (a, w) :: m else (a, w) :: Memory.insert m addr v

/-- Set the byte at an address, keeping the canonical form: a blank byte is not listed. -/
def Memory.put (m : Memory) (addr : Nat) (v : Byte) : Memory :=
  if v = Config.memBlank then m.erase addr else (m.erase addr).insert addr v

/-- The canonical form from address `lo` up: addresses strictly rising and below 256, no blank entry. -/
def Memory.wfFrom : Nat → Memory → Bool
  | _, [] => true
  | lo, (a, v) :: m =>
    decide (lo ≤ a) && decide (a < Config.memSize) && decide (v ≠ Config.memBlank) && Memory.wfFrom (a + 1) m

/-- The memory is in its canonical form, so that equal memories are equal data. -/
def Memory.wf (m : Memory) : Bool := Memory.wfFrom 0 m

/-- The memory that holds the given bytes from address `k` upward and nothing else (R70). -/
def Memory.ofImage : Nat → List Byte → Memory
  | _, [] => []
  | k, v :: vs =>
    if v = Config.memBlank then Memory.ofImage (k + 1) vs else (k, v) :: Memory.ofImage (k + 1) vs

/-! ### One update per part of the state -/

/-- `MEM` replaced whole. -/
def State.setMem (s : State) (m : Memory) : State := { s with mem := m }

/-- `pc <- n`. -/
def State.setPc (s : State) (n : Nat) : State := { s with pc := n }

/-- `FL <- v`: the whole byte. -/
def State.setFl (s : State) (v : Byte) : State := { s with fl := v }

/-- `RUN <- 0`. -/
def State.halt (s : State) : State := { s with run := false }

/-! ### Memory accesses -/

/-- `MemRead(addr, 1)` (R52). -/
def memRead (s : State) (addr : Nat) : Except Cause Byte :=
  if addr < Config.memSize then .ok (Memory.get s.mem addr) else .error (.addressOutOfRange addr)

/-- `MemWrite(addr, 1, v)` (R53). -/
def memWrite (s : State) (addr : Nat) (v : Byte) : Except Cause State :=
  if addr < Config.memSize then .ok (s.setMem (Memory.put s.mem addr v))
  else .error (.addressOutOfRange addr)

/-! ### Registers -/

/-- `x[r]` (R10, R21): an ordinary cell for every index, none hard-wired. -/
def State.getReg (s : State) (r : RegIdx) : Byte := s.regs[r.val]'r.isLt

/-- `x[r] <- v` (R10, R21). -/
def State.setReg (s : State) (r : RegIdx) (v : Byte) : State := { s with regs := s.regs.set r.val v r.isLt }

/-- `SP`, which is `x[7]` (R22). -/
def State.sp (s : State) : Byte := s.getReg Config.spIndex

/-- `SP <- (SP - 1) mod 256` (R24; the wrap is D4, log 12). -/
def State.decSp (s : State) : State := s.setReg Config.spIndex (s.sp - 1)

/-- `SP <- (SP + 1) mod 256` (R24; the wrap is D4, log 12). -/
def State.incSp (s : State) : State := s.setReg Config.spIndex (s.sp + 1)

/-- `MemRead(SP, 1)` (R166, R186). -/
def loadAtSp (s : State) : Except Cause Byte := memRead s s.sp.toNat

/-- `MemWrite(SP, 1, v)` (R162, R182). -/
def storeAtSp (s : State) (v : Byte) : Except Cause State := memWrite s s.sp.toNat v

/-- `pc <- target` for a target byte, zero-extended (R212). -/
def State.jump (s : State) (target : Byte) : State := s.setPc target.toNat

/-! ### Output -/

/-- `Out(v)`: append to `OUT` (R34). The sink never blocks or fails (R130). -/
def State.emit (s : State) (v : Byte) : State := { s with out := s.out ++ [v] }

/-! ### Taking a fault -/

/-- The cause code of R33. -/
def Cause.code : Cause → BitVec 3
  | .illegalInstruction _ => 1
  | .unsupportedALUOp _ => 2
  | .addressOutOfRange _ => 3
  | .registerIndexOutOfRange _ => 4

/-- `raise` (R236): nothing of the instruction happens and `pc` stays, then `RUN <- 0` and `FAULT <- code`.
There is no return from it (R238); only reset leaves the state it makes. -/
def raise (c : Cause) (s : State) : State := { s with run := false, fault := c.code }

/-! ### The cycle -/

/-- The fetch (R96): the range check on all three addresses first, then three reads. It changes no state. -/
def fetch (s : State) : Except Cause Latches :=
  if s.pc > Config.lastFetch then .error (.addressOutOfRange s.pc)
  else do
    let ir ← memRead s s.pc
    let a ← memRead s (s.pc + 1)
    let b ← memRead s (s.pc + 2)
    return { ir, a, b }

/-- The advance (R100): with `p` the `pc` at the start of the step, `pc <- p + IR[7:6] + 1` when `IR[4] = 0`, exact
and not reduced; when `IR[4] = 1` the handler has set `pc`. -/
def cycleAdvance (ir : Byte) (p : Nat) (s : State) : State :=
  if setsPc ir then s else s.setPc (p + operandCount ir + 1)

/-- The end of a step from `s` with opcode `ir` (R98, R236): a handler that returns is followed by the advance, a
handler that raises leaves `s` with the fault taken. Either is a next state. -/
def complete (ir : Byte) (s : State) : Except Cause State → Answer
  | .ok s' => .next (cycleAdvance ir s.pc s')
  | .error c => .next (raise c s)

/-! ### Launch -/

/-- Reset with a loaded image (R40, R41, R70, R270). A program of more than 256 bytes has no launch (D14). -/
def State.launch (l : Launch) : Option State :=
  if l.program.length ≤ Config.memSize then
    some { mem := Memory.ofImage 0 l.program
           regs := l.gpr.push Config.spReset
           pc := Config.pcReset
           fl := l.fl
           run := true
           fault := 0
           out := [] }
  else none

/-- A memory with the three bytes of a table word stored from an address upward. -/
def Memory.putTableWord (m : Memory) (addr nbits w : Nat) : Memory :=
  ((m.put addr (tableByte nbits w 0)).put (addr + 1) (tableByte nbits w 1)).put (addr + 2) (tableByte nbits w 2)

end Sys2Proof.Machine
end

