-- ==== Sys2Proof/Machine/Operands.lean ====
section
/-! DEFINITION. The one operand form the handlers decode: a whole byte that numbers a register (R86). LDI's
immediate is its byte as it stands (R87) and needs no operation. -/

namespace Sys2Proof.Machine

/-- `Reg(b)` (R86): the register index, or the fault of R234 when the byte is above 7. No bit is masked (D3, log 11). -/
def reg (b : Byte) : Except Cause RegIdx :=
  if h : b.toNat < 8 then .ok ⟨b.toNat, h⟩ else .error (.registerIndexOutOfRange b)

/-- The operand byte that numbers a register. -/
def regByte (r : RegIdx) : Byte := BitVec.ofNat 8 r.val

end Sys2Proof.Machine
end

