-- ==== Sys2Proof/Machine/Alu.lean ====
section
/-! DEFINITION. The ALU and its instructions ADD and MUL (`41_alu.md`). -/

namespace Sys2Proof.Machine

/-- The ALU's operator select (R140). `other` is every operator the ALU does not support; no instruction passes one
(R142, log 18). -/
inductive AluOp where
  | add
  | mul
  | other (op : Byte)
deriving DecidableEq, Repr

/-- `alu(op, ra, rb)` (R140): both registers are read before the write; results wrap modulo 256 (R150); no flag. -/
def alu (op : AluOp) (ra rb : RegIdx) (s : State) : Except Cause State :=
  let va := s.getReg ra
  let vb := s.getReg rb
  match op with
  | .add => .ok (s.setReg ra (va + vb))
  | .mul => .ok (s.setReg ra (va * vb))
  | .other op => .error (.unsupportedALUOp op)

/-- ADD (R144): `a` is checked before `b` (R244). -/
def execAdd (a b : Byte) (s : State) : Answer :=
  complete Opc.add s do
    let ra ← reg a
    let rb ← reg b
    alu .add ra rb s

/-- MUL (R148): `a` is checked before `b` (R244). -/
def execMul (a b : Byte) (s : State) : Answer :=
  complete Opc.mul s do
    let ra ← reg a
    let rb ← reg b
    alu .mul ra rb s

end Sys2Proof.Machine
end

