-- ==== Sys2Proof/Machine/Flags.lean ====
section
/-! DEFINITION. The flags byte `FL` (R29): its three bits, and the byte a comparison assigns (R202). -/

namespace Sys2Proof.Machine

/-- `FL.E`, bit 0. -/
def flagE (fl : Byte) : Bool := fl.getLsbD 0

/-- `FL.G`, bit 1. -/
def flagG (fl : Byte) : Bool := fl.getLsbD 1

/-- `FL.L`, bit 2. -/
def flagL (fl : Byte) : Bool := fl.getLsbD 2

/-- The whole byte CMP assigns: Equal 1, Less 4, Greater 2, by the unsigned order of the operands (R202). Bits 7:3
become 0 (D7, log 13). -/
def compareFlags (va vb : Byte) : Byte :=
  if va.toNat = vb.toNat then 0b00000001
  else if va.toNat < vb.toNat then 0b00000100
  else 0b00000010

end Sys2Proof.Machine
end

