-- ==== Sys2Proof/Machine/Compare.lean ====
section
/-! DEFINITION. CMP (`44_compare.md`). -/

namespace Sys2Proof.Machine

/-- CMP (R202): the whole of `FL` is assigned; no register is written. -/
def execCmp (a b : Byte) (s : State) : Answer :=
  complete Opc.cmp s do
    let ra ← reg a
    let rb ← reg b
    return s.setFl (compareFlags (s.getReg ra) (s.getReg rb))

end Sys2Proof.Machine
end

