-- ==== Sys2Proof/Machine/HaltLoadPrint.lean ====
section
/-! DEFINITION. HLT, LDI, PRN (`40_halt_load_print.md`). -/

namespace Sys2Proof.Machine

/-- HLT (R122): `RUN <- 0`; the advance still runs, so `pc` ends at `p + 1` (D10, log 15). -/
def execHlt (s : State) : Answer :=
  complete Opc.hlt s (.ok s.halt)

/-- LDI (R126). -/
def execLdi (a b : Byte) (s : State) : Answer :=
  complete Opc.ldi s do
    let r ← reg a
    return s.setReg r b

/-- PRN (R130): the byte itself goes to `OUT`; the sink renders it (D12, log 17). -/
def execPrn (a : Byte) (s : State) : Answer :=
  complete Opc.prn s do
    let r ← reg a
    return s.emit (s.getReg r)

end Sys2Proof.Machine
end

