-- ==== Sys2Proof/Machine/Jumps.lean ====
section
/-! DEFINITION. JMP, JEQ, JNE (`45_jumps.md`). The register operand is checked before the condition is tested
(R212); a jump not taken skips its own two bytes, since the cycle does not advance it. -/

namespace Sys2Proof.Machine

/-- JMP (R210). -/
def execJmp (a : Byte) (s : State) : Answer :=
  complete Opc.jmp s do
    let r ← reg a
    return s.jump (s.getReg r)

/-- The conditional jump: to `x[r]` when the condition holds, else past the instruction's two bytes. -/
def jumpIf (cond : Bool) (r : RegIdx) (s : State) : State :=
  s.setPc (if cond then (s.getReg r).toNat else s.pc + 2)

/-- JEQ (R214): taken iff `FL[0] = 1`. -/
def execJeq (a : Byte) (s : State) : Answer :=
  complete Opc.jeq s do
    let r ← reg a
    return jumpIf (flagE s.fl) r s

/-- JNE (R218): taken iff `FL[0] = 0`. -/
def execJne (a : Byte) (s : State) : Answer :=
  complete Opc.jne s do
    let r ← reg a
    return jumpIf (!flagE s.fl) r s

end Sys2Proof.Machine
end

