-- ==== Sys2Proof/Machine/Stack.lean ====
section
/-! DEFINITION. PUSH and POP (`42_stack.md`). The statements of each handler run in the order written and each sees
the one before it, which shows when the operand register is R7 (R160, D11, log 16). -/

namespace Sys2Proof.Machine

/-- PUSH (R162): `SP` is decremented first, then the register is read and stored at the new `SP`. -/
def execPush (a : Byte) (s : State) : Answer :=
  complete Opc.push s do
    let r ← reg a
    let s := s.decSp
    storeAtSp s (s.getReg r)

/-- POP (R166): the byte at `SP` is loaded first, then `SP`, which the load may have written, is incremented. -/
def execPop (a : Byte) (s : State) : Answer :=
  complete Opc.pop s do
    let r ← reg a
    let v ← loadAtSp s
    return (s.setReg r v).incSp

end Sys2Proof.Machine
end

