-- ==== Sys2Proof/Machine/Subroutine.lean ====
section
/-! DEFINITION. CALL and RET (`43_subroutine.md`). Statements run in the order written (R180, D11, log 16). -/

namespace Sys2Proof.Machine

/-- CALL (R182): `SP` is decremented, `p + 2` is stored at the new `SP`, and the target is read after both. A step
reaches this only with `p <= 253`, so `p + 2` fits its byte (log 7). -/
def execCall (a : Byte) (s : State) : Answer :=
  complete Opc.call s do
    let r ← reg a
    let t := s.decSp
    let t ← storeAtSp t (BitVec.ofNat 8 (s.pc + 2))
    return t.jump (t.getReg r)

/-- RET (R186). -/
def execRet (s : State) : Answer :=
  complete Opc.ret s do
    let v ← loadAtSp s
    return (s.jump v).incSp

end Sys2Proof.Machine
end

