-- ==== Sys2Proof/Machine/Step.lean ====
section
/-! DEFINITION. One step of the core (R98), and a state whose next fetch finds a given instruction. -/

namespace Sys2Proof.Machine

/-- One step (R98): a stopped core takes none (R94); then the fetch, the dispatch on the opcode byte, and the
instruction. A fetch that fails and an illegal opcode take their faults (R233, R231), in this order (R244). -/
def step (s : State) : Host.Outcome State Fault Refusal :=
  if s.run then
    match fetch s with
    | .error c => .next (raise c s)
    | .ok f =>
      match decodeFetched f.ir f.a f.b with
      | .error _ => .next (raise (.illegalInstruction f.ir) s)
      | .ok i => exec i s
  else .fault .coreStopped

/-- The state with a table word stored where the next fetch reads it, at `pc` upward (log 5). -/
def State.withFetchWord (s : State) (nbits w : Nat) : State :=
  { s with mem := Memory.putTableWord s.mem s.pc nbits w }

end Sys2Proof.Machine
end

