-- ==== Sys2Proof/WellFormed.lean ====
section
/-! DEFINITION. When an instruction term is well formed: every operand byte it uses as a register number is
0 to 7 (R86, R274 item 5). An ill-formed instruction still decodes and runs: its step raises
`RegisterIndexOutOfRange` (R234). -/

namespace Sys2Proof

/-- The operand bytes an instruction uses as register numbers, in the order they are checked (R86, R234, R244):
LDI's second byte is an immediate and is not among them. -/
def Instr.regOperands : Instr → List Byte
  | .hlt => []
  | .ldi r _ => [r]
  | .prn r => [r]
  | .add a b => [a, b]
  | .mul a b => [a, b]
  | .push r => [r]
  | .pop r => [r]
  | .call r => [r]
  | .ret => []
  | .cmp a b => [a, b]
  | .jmp r => [r]
  | .jeq r => [r]
  | .jne r => [r]

/-- A register operand byte names one of the eight registers. -/
def regByteOk (b : Byte) : Bool := decide (b.toNat ≤ 7)

/-- Every register operand of the instruction is in range. -/
def Instr.wellFormed (i : Instr) : Bool := i.regOperands.all regByteOk

end Sys2Proof
end

