-- ==== Sys2Proof/Safety.lean ====
section
/-! DEFINITION. The terms claims use: the three readable conditions of R33, the invariant of R45, the states a run
reaches (R94), and bytes lying in memory. -/

namespace Sys2Proof.Machine

/-- Running: `RUN = 1`, `FAULT = 0` (R33). -/
abbrev State.Running (s : State) : Prop := s.run = true ∧ s.fault = 0

/-- Halted cleanly: `RUN = 0`, `FAULT = 0` (R33, R280). -/
abbrev State.HaltedCleanly (s : State) : Prop := s.run = false ∧ s.fault = 0

/-- Faulted: `RUN = 0`, `FAULT` not 0 (R33). -/
abbrev State.Faulted (s : State) : Prop := s.run = false ∧ s.fault ≠ 0

/-- What every reachable state satisfies (R45, R33): memory in canonical form inside 0 to 255, `pc` 0 to 256, a
cause code that is written by some fault or 0, and never `RUN = 1` beside a nonzero `FAULT`. -/
structure State.Inv (s : State) : Prop where
  memory : Memory.wf s.mem = true
  counter : s.pc ≤ 256
  code : s.fault.toNat ≤ 4
  status : s.run = true → s.fault = 0

/-- `FL` holds one of the three values a comparison assigns (R45, R202). -/
abbrev State.Compared (s : State) : Prop := s.fl = 1 ∨ s.fl = 2 ∨ s.fl = 4

/-- The states of the runs of R94: a launch, and the next state of a step. -/
inductive Reachable : State → Prop where
  | launch (l : Launch) (s : State) : State.launch l = some s → Reachable s
  | step (s t : State) : Reachable s → Machine.step s = .next t → Reachable t

/-- The bytes lie in memory from an address upward. -/
def State.Holds (s : State) (addr : Nat) (bytes : List Byte) : Prop :=
  ∀ k (h : k < bytes.length), Memory.get s.mem (addr + k) = bytes[k]

end Sys2Proof.Machine
end

