-- ==== Sys2Proof/Certificates/Slice0/Obligations.lean ====
section
/-! DEFINITION. The statements for the provers. A docstring names the rules of `spec/` a statement rests on; where a
clause rests on a decision the spec marks as its own (`D<n>` of `92_eei_decisions.md`), it says so.

`Memory.get s.mem a` is the byte at address `a`, `s.getReg r` is `x[r]`, `s.sp` is `x[7]`, `regByte r` is the operand
byte that numbers register `r`. -/

open Sys2Proof Sys2Proof.Machine

/-! ### Encoding and decoding -/

/-- R90, R84; bytes written out from the opcode table: one word of each family decodes to its instruction. -/
def Obligations.SpecBytesDecode : Prop :=
  decode [0b10000010, 0, 8, 0b01000111] = .ok (.ldi 0 8, [0b01000111]) ∧
  decode [0b00000001] = .ok (.hlt, []) ∧
  decode [0b10100000, 2, 3] = .ok (.add 2 3, []) ∧
  decode [0b01000101, 1] = .ok (.push 1, []) ∧
  decode [0b01010000, 1, 0b01000111] = .ok (.call 1, [0b01000111]) ∧
  decode [0b10100111, 1, 3] = .ok (.cmp 1 3, []) ∧
  decode [0b01010101, 5] = .ok (.jeq 5, []) ∧
  decodeTableWord 24 0x0100A2 = some (.mul 0 1) ∧
  decodeTableWord 8 0x00 = none

/-- R93: the mapping from opcode bytes to handlers has exactly the 13 keys of R90, is keyed by the whole byte, and the
operand bytes take no part in the selection. Every other byte selects nothing. -/
def Obligations.DispatchMatchesWholeOpcodeByte : Prop :=
  ∀ a b : Byte,
    decodeFetched 0x01 a b = .ok .hlt ∧
    decodeFetched 0x82 a b = .ok (.ldi a b) ∧
    decodeFetched 0x47 a b = .ok (.prn a) ∧
    decodeFetched 0xA0 a b = .ok (.add a b) ∧
    decodeFetched 0xA2 a b = .ok (.mul a b) ∧
    decodeFetched 0x45 a b = .ok (.push a) ∧
    decodeFetched 0x46 a b = .ok (.pop a) ∧
    decodeFetched 0x50 a b = .ok (.call a) ∧
    decodeFetched 0x11 a b = .ok .ret ∧
    decodeFetched 0xA7 a b = .ok (.cmp a b) ∧
    decodeFetched 0x54 a b = .ok (.jmp a) ∧
    decodeFetched 0x55 a b = .ok (.jeq a) ∧
    decodeFetched 0x56 a b = .ok (.jne a) ∧
    ∀ ir : Byte, ir ∉ ([0x01, 0x82, 0x47, 0xA0, 0xA2, 0x45, 0x46, 0x50, 0x11, 0xA7, 0x54, 0x55, 0x56] : List Byte) →
      decodeFetched ir a b = .error (.illegalOpcode ir)

/-- R80: the opcode byte at `pc` and the operand bytes at `pc + 1`, `pc + 2`; an instruction is its opcode followed by
as many operand bytes as the opcode's top two bits say, at most two; and a decoder takes `1 + IR[7:6]` bytes, told by
the opcode alone. -/
def Obligations.InstructionLayoutAndLength : Prop :=
  (∀ s : State, s.pc ≤ 253 →
    fetch s = .ok ⟨Memory.get s.mem s.pc, Memory.get s.mem (s.pc + 1), Memory.get s.mem (s.pc + 2)⟩) ∧
  (∀ i : Instr, ∃ ir ops, encode i = ir :: ops ∧ ops = i.operands ∧ ops.length = ir.toNat / 64 ∧ ops.length ≤ 2) ∧
  (∀ bs rest i, decode bs = .ok (i, rest) →
    ∃ ir tail, bs = ir :: tail ∧ ir.toNat / 64 ≤ 2 ∧ tail.length = ir.toNat / 64 + rest.length)

/-- Decoding the bytes of an instruction, whatever follows them, gives the instruction and what follows (R80, R84, R90).
No operand value is shut out: a byte above 7 in a register place decodes too (R86 makes it the handler's fault). -/
def Obligations.DecodeOfEncode : Prop :=
  ∀ (i : Instr) (rest : List Byte), decode (encode i ++ rest) = .ok (i, rest)

/-- Bytes that decode are the encoding of what they decode to: no two byte sequences share an instruction (R93, R106). -/
def Obligations.EncodeOfDecode : Prop :=
  ∀ (bs rest : List Byte) (i : Instr), decode bs = .ok (i, rest) → bs = encode i ++ rest

/-! ### Reset and launch -/

/-- R40, R41, R70, R270: reset with a loaded image. The default-free `GPR_RESET` and `FL_RESET` are the launch's own
values (D5, D6); `FAULT` and `OUT` are the spec's own state (D8, D12); a program of more than 256 bytes has no launch
(D14). -/
def Obligations.LaunchEstablishesResetState : Prop :=
  ∀ l : Launch,
    (256 < l.program.length → State.launch l = none) ∧
    (l.program.length ≤ 256 → ∃ s, State.launch l = some s ∧
      (∀ a (h : a < l.program.length), Memory.get s.mem a = l.program[a]) ∧
      (∀ a, l.program.length ≤ a → Memory.get s.mem a = 0) ∧
      (∀ (k : Nat) (h : k < 7), s.getReg ⟨k, by omega⟩ = l.gpr[k]) ∧
      s.getReg 7 = 0xF4 ∧ s.pc = 0 ∧ s.fl = l.fl ∧ s.run = true ∧ s.fault = 0 ∧ s.out = [])

/-- R272: execution begins at address 0, so the first opcode byte is `MEM_INIT[0]`, with no vector read. -/
def Obligations.ExecutionBeginsAtAddressZero : Prop :=
  ∀ (l : Launch) (s : State), State.launch l = some s →
    s.run = true ∧ s.pc = 0 ∧ ∃ f, fetch s = .ok f ∧ f.ir = l.program.getD 0 0

/-- `State.reset` is the launch of the empty program with the default `GPR_RESET` of R40 (D5, log 2: the model's choice
for R0 to R6) and the unconstrained `FL_RESET` (D6, log 3). -/
def Obligations.ResetIsTheEmptyLaunch : Prop :=
  State.launch ⟨[], #v[0, 0, 0, 0, 0, 0, 0], Config.flReset⟩ = some State.reset

/-! ### Memory -/

/-- R52, R53, R60: a write inside 0 to 255 is what the next read there gives, changes no other address and nothing
else of the state; an access above 255 raises `AddressOutOfRange` (D2, log 10). -/
def Obligations.MemoryReadsTheLastWrite : Prop :=
  ∀ (s : State) (addr : Nat) (v : Byte),
    (addr ≤ 255 → ∃ t, memWrite s addr v = .ok t ∧ memRead t addr = .ok v ∧
      (∀ a, a ≠ addr → memRead t a = memRead s a) ∧ { t with mem := s.mem } = s) ∧
    (255 < addr → memWrite s addr v = .error (.addressOutOfRange addr) ∧
      memRead s addr = .error (.addressOutOfRange addr))

/-- The canonical form is faithful: two memories in it that read the same at every address are the same data, and a
write inside the address space keeps it (R50; the form is the model's). -/
def Obligations.CanonicalMemoriesAreEqual : Prop :=
  (∀ m n : Memory, Memory.wf m = true → Memory.wf n = true → (∀ a, Memory.get m a = Memory.get n a) → m = n) ∧
  (∀ (s t : State) (addr : Nat) (v : Byte), Memory.wf s.mem = true → memWrite s addr v = .ok t →
    Memory.wf t.mem = true)

/-! ### The ALU block -/

/-- R140: ADD and MUL are functions of the two old values, written to `ra` and nothing else; any other operator
raises. -/
def Obligations.AluReadsBothThenWritesFirst : Prop :=
  ∀ (s : State) (ra rb : RegIdx),
    (∃ t, alu .add ra rb s = .ok t ∧
      (t.getReg ra).toNat = ((s.getReg ra).toNat + (s.getReg rb).toNat) % 256 ∧
      (∀ r, r ≠ ra → t.getReg r = s.getReg r) ∧ { t with regs := s.regs } = s) ∧
    (∃ t, alu .mul ra rb s = .ok t ∧
      (t.getReg ra).toNat = ((s.getReg ra).toNat * (s.getReg rb).toNat) % 256 ∧
      (∀ r, r ≠ ra → t.getReg r = s.getReg r) ∧ { t with regs := s.regs } = s) ∧
    (∀ op, alu (.other op) ra rb s = .error (.unsupportedALUOp op))

/-! ### What each instruction does on register numbers -/

/-- R122: HLT stops the cycle and `FAULT` stays; the advance still runs (D10, log 15). -/
def Obligations.HltStopsCleanly : Prop :=
  ∀ s : State, ∃ t, exec .hlt s = .next t ∧
    t.run = false ∧ t.fault = s.fault ∧ t.pc = s.pc + 1 ∧
    t.mem = s.mem ∧ (∀ r, t.getReg r = s.getReg r) ∧ t.fl = s.fl ∧ t.out = s.out

/-- R126, R87: LDI loads the immediate as it stands, into R7 like any register. -/
def Obligations.LdiLoadsImmediate : Prop :=
  ∀ (r : RegIdx) (v : Byte) (s : State), ∃ t, exec (.ldi (regByte r) v) s = .next t ∧
    t.getReg r = v ∧ (∀ q, q ≠ r → t.getReg q = s.getReg q) ∧ t.pc = s.pc + 3 ∧
    t.mem = s.mem ∧ t.fl = s.fl ∧ t.run = s.run ∧ t.fault = s.fault ∧ t.out = s.out

/-- R130: PRN appends the register's byte to `OUT` (the raw byte is D12, log 17). -/
def Obligations.PrnEmitsRegister : Prop :=
  ∀ (r : RegIdx) (s : State), ∃ t, exec (.prn (regByte r)) s = .next t ∧
    t.out = s.out ++ [s.getReg r] ∧ t.pc = s.pc + 2 ∧
    (∀ q, t.getReg q = s.getReg q) ∧ t.mem = s.mem ∧ t.fl = s.fl ∧ t.run = s.run ∧ t.fault = s.fault

/-- R144, R150: ADD, also with the same register twice. -/
def Obligations.AddWrapsModulo256 : Prop :=
  ∀ (ra rb : RegIdx) (s : State), ∃ t, exec (.add (regByte ra) (regByte rb)) s = .next t ∧
    (t.getReg ra).toNat = ((s.getReg ra).toNat + (s.getReg rb).toNat) % 256 ∧
    (∀ r, r ≠ ra → t.getReg r = s.getReg r) ∧ t.pc = s.pc + 3 ∧
    t.mem = s.mem ∧ t.fl = s.fl ∧ t.run = s.run ∧ t.fault = s.fault ∧ t.out = s.out

/-- R148, R150: MUL, also with the same register twice. -/
def Obligations.MulWrapsModulo256 : Prop :=
  ∀ (ra rb : RegIdx) (s : State), ∃ t, exec (.mul (regByte ra) (regByte rb)) s = .next t ∧
    (t.getReg ra).toNat = ((s.getReg ra).toNat * (s.getReg rb).toNat) % 256 ∧
    (∀ r, r ≠ ra → t.getReg r = s.getReg r) ∧ t.pc = s.pc + 3 ∧
    t.mem = s.mem ∧ t.fl = s.fl ∧ t.run = s.run ∧ t.fault = s.fault ∧ t.out = s.out

/-- R162: PUSH decrements `SP` (wrapping: D4, log 12) and stores at the new `SP`; for R7 the byte stored is the
decremented `SP` (D11, log 16). -/
def Obligations.PushStoresBelowStackPointer : Prop :=
  ∀ (r : RegIdx) (s : State), ∃ t, exec (.push (regByte r)) s = .next t ∧
    t.sp.toNat = (s.sp.toNat + 255) % 256 ∧
    Memory.get t.mem ((s.sp.toNat + 255) % 256) = (if r = 7 then t.sp else s.getReg r) ∧
    (∀ a, a ≠ (s.sp.toNat + 255) % 256 → Memory.get t.mem a = Memory.get s.mem a) ∧
    (∀ q, q ≠ 7 → t.getReg q = s.getReg q) ∧ t.pc = s.pc + 2 ∧
    t.fl = s.fl ∧ t.run = s.run ∧ t.fault = s.fault ∧ t.out = s.out

/-- R166: POP loads the byte at `SP`, then increments `SP` (wrapping: D4, log 12); for R7 the increment applies to the
byte just loaded (D11, log 16). -/
def Obligations.PopLoadsAtStackPointer : Prop :=
  ∀ (r : RegIdx) (s : State), ∃ t, exec (.pop (regByte r)) s = .next t ∧
    (r ≠ 7 → t.getReg r = Memory.get s.mem s.sp.toNat ∧ t.sp.toNat = (s.sp.toNat + 1) % 256) ∧
    (r = 7 → t.sp.toNat = ((Memory.get s.mem s.sp.toNat).toNat + 1) % 256) ∧
    (∀ q, q ≠ r → q ≠ 7 → t.getReg q = s.getReg q) ∧ t.pc = s.pc + 2 ∧
    t.mem = s.mem ∧ t.fl = s.fl ∧ t.run = s.run ∧ t.fault = s.fault ∧ t.out = s.out

/-- R182: CALL stores `p + 2` at the decremented `SP` (wrapping: D4, log 12) and goes to the register's value; for R7
the target is the decremented `SP` (D11, log 16). `p <= 253` is the condition under which a step executes (R96). -/
def Obligations.CallStoresReturnAddressAndJumps : Prop :=
  ∀ (r : RegIdx) (s : State), s.pc ≤ 253 → ∃ t, exec (.call (regByte r)) s = .next t ∧
    t.sp.toNat = (s.sp.toNat + 255) % 256 ∧
    (Memory.get t.mem ((s.sp.toNat + 255) % 256)).toNat = s.pc + 2 ∧
    (∀ a, a ≠ (s.sp.toNat + 255) % 256 → Memory.get t.mem a = Memory.get s.mem a) ∧
    t.pc = (if r = 7 then t.sp.toNat else (s.getReg r).toNat) ∧
    (∀ q, q ≠ 7 → t.getReg q = s.getReg q) ∧
    t.fl = s.fl ∧ t.run = s.run ∧ t.fault = s.fault ∧ t.out = s.out

/-- R186: RET goes to the byte at `SP`, zero-extended, and increments `SP` (wrapping: D4, log 12). -/
def Obligations.RetJumpsToStackedByte : Prop :=
  ∀ s : State, ∃ t, exec .ret s = .next t ∧
    t.pc = (Memory.get s.mem s.sp.toNat).toNat ∧ t.sp.toNat = (s.sp.toNat + 1) % 256 ∧
    (∀ q, q ≠ 7 → t.getReg q = s.getReg q) ∧
    t.mem = s.mem ∧ t.fl = s.fl ∧ t.run = s.run ∧ t.fault = s.fault ∧ t.out = s.out

/-- R202: CMP sets exactly one of Equal, Greater, Less, by the unsigned order of regA relative to regB; bits 7:3 become
0 (D7, log 13). -/
def Obligations.CmpSetsExactlyOneFlag : Prop :=
  ∀ (ra rb : RegIdx) (s : State), ∃ t, exec (.cmp (regByte ra) (regByte rb)) s = .next t ∧
    (flagE t.fl = true ↔ (s.getReg ra).toNat = (s.getReg rb).toNat) ∧
    (flagG t.fl = true ↔ (s.getReg ra).toNat > (s.getReg rb).toNat) ∧
    (flagL t.fl = true ↔ (s.getReg ra).toNat < (s.getReg rb).toNat) ∧
    t.fl.toNat < 8 ∧ t.pc = s.pc + 3 ∧
    (∀ q, t.getReg q = s.getReg q) ∧ t.mem = s.mem ∧ t.run = s.run ∧ t.fault = s.fault ∧ t.out = s.out

/-- R210: JMP writes `pc` only. -/
def Obligations.JmpJumpsToRegister : Prop :=
  ∀ (r : RegIdx) (s : State), exec (.jmp (regByte r)) s = .next { s with pc := (s.getReg r).toNat }

/-- R214: JEQ is taken iff bit 0 of `FL` is 1, and otherwise skips its two bytes; it writes `pc` only. -/
def Obligations.JeqJumpsIffEqual : Prop :=
  ∀ (r : RegIdx) (s : State), exec (.jeq (regByte r)) s =
    .next { s with pc := if s.fl.toNat % 2 = 1 then (s.getReg r).toNat else s.pc + 2 }

/-- R218: JNE is taken iff bit 0 of `FL` is 0, and otherwise skips its two bytes; it writes `pc` only. -/
def Obligations.JneJumpsIffNotEqual : Prop :=
  ∀ (r : RegIdx) (s : State), exec (.jne (regByte r)) s =
    .next { s with pc := if s.fl.toNat % 2 = 0 then (s.getReg r).toNat else s.pc + 2 }

/-- R218: "in any state exactly one of `JEQ r`, `JNE r` is taken". -/
def Obligations.JeqAndJneAreComplementary : Prop :=
  ∀ (r : RegIdx) (s : State), ∃ t u, exec (.jeq (regByte r)) s = .next t ∧ exec (.jne (regByte r)) s = .next u ∧
    ((t.pc = (s.getReg r).toNat ∧ u.pc = s.pc + 2) ∨ (t.pc = s.pc + 2 ∧ u.pc = (s.getReg r).toNat)) ∧
    { t with pc := u.pc } = u

/-- R100, R27: an instruction whose opcode bit 4 is 0 and that completes leaves `pc` at `p + IR[7:6] + 1`, exact and not
reduced (for HLT this is D10, log 15). -/
def Obligations.CycleAdvancesUnlessBitFour : Prop :=
  ∀ (i : Instr) (s : State), i.wellFormed = true → (opcodeOf i).toNat / 16 % 2 = 0 →
    ∃ t, exec i s = .next t ∧ t.pc = s.pc + (opcodeOf i).toNat / 64 + 1

/-! ### Frames -/

/-- LDI, ADD, MUL on any operand bytes: only the destination register and `pc` change, and `RUN`, `FAULT` only where
an operand byte above 7 faults (R126, R144, R148, R234). That a register byte above 7 faults is the spec's decision D3
(log 11); that such a fault writes nothing but RUN and FAULT is D8 (log 9). -/
def Obligations.FrameOfLdiAddMul : Prop :=
  ∀ (a b : Byte) (i : Instr) (s t : State), (i = .ldi a b ∨ i = .add a b ∨ i = .mul a b) → exec i s = .next t →
    (∀ r, regByte r ≠ a → t.getReg r = s.getReg r) ∧ t.fl = s.fl ∧ t.out = s.out ∧
    (∀ addr, Memory.get t.mem addr = Memory.get s.mem addr) ∧
    (i.wellFormed = true → t.run = s.run ∧ t.fault = s.fault)

/-- HLT, PRN, CMP, JMP, JEQ, JNE on any operand bytes: no register and no byte of memory changes; `FL` changes only by
CMP, `OUT` only by PRN, `RUN` only by HLT, and `RUN`, `FAULT` where an operand byte above 7 faults (R122, R130, R202,
R210, R214, R218, R234). That a register byte above 7 faults is the spec's decision D3 (log 11); that such a fault
writes nothing but RUN and FAULT is D8 (log 9). -/
def Obligations.FrameOfHltPrnCmpAndJumps : Prop :=
  ∀ (a b : Byte) (i : Instr) (s t : State),
    (i = .hlt ∨ i = .prn a ∨ i = .cmp a b ∨ i = .jmp a ∨ i = .jeq a ∨ i = .jne a) → exec i s = .next t →
    (∀ r, t.getReg r = s.getReg r) ∧ (∀ addr, Memory.get t.mem addr = Memory.get s.mem addr) ∧
    (i ≠ .cmp a b → t.fl = s.fl) ∧ (i ≠ .prn a → t.out = s.out) ∧
    (i.wellFormed = true → (i ≠ .hlt → t.run = s.run) ∧ t.fault = s.fault)

/-- POP and RET on any operand byte: only the operand register (POP) and `SP` change among registers, no byte of
memory, no flag, no output; `RUN`, `FAULT` only where an operand byte above 7 faults (R166, R186, R234). That a
register byte above 7 faults is the spec's decision D3 (log 11); that such a fault writes nothing but RUN and FAULT is
D8 (log 9). -/
def Obligations.FrameOfPopRet : Prop :=
  ∀ (a : Byte) (i : Instr) (s t : State), (i = .pop a ∨ i = .ret) → exec i s = .next t →
    (∀ r, (i = .pop a → regByte r ≠ a) → r ≠ 7 → t.getReg r = s.getReg r) ∧
    (∀ addr, Memory.get t.mem addr = Memory.get s.mem addr) ∧ t.fl = s.fl ∧ t.out = s.out ∧
    (i.wellFormed = true → t.run = s.run ∧ t.fault = s.fault)

/-- PUSH and CALL on any operand byte: among registers only `SP` changes; the one byte stored is at the decremented
`SP`, computed as the meanings compute it; no flag, no output; `RUN`, `FAULT` only where an operand byte above 7
faults (R162, R182, R234). That a register byte above 7 faults is the spec's decision D3 (log 11); that such a fault
writes nothing but RUN and FAULT is D8 (log 9). That the address wraps is D4 (log 12). -/
def Obligations.FrameOfPushCall : Prop :=
  ∀ (a : Byte) (i : Instr) (s t : State), (i = .push a ∨ i = .call a) → exec i s = .next t →
    (∀ r, r ≠ 7 → t.getReg r = s.getReg r) ∧
    (∀ addr, s.decSp.sp.toNat = addr → ∀ other, other ≠ addr → Memory.get t.mem other = Memory.get s.mem other) ∧
    t.fl = s.fl ∧ t.out = s.out ∧
    (i.wellFormed = true → t.run = s.run ∧ t.fault = s.fault)

/-- R120: HLT, LDI and PRN neither read nor write memory beyond the fetch, none writes `FL`, and bit 4 of each opcode
is 0, so each that completes ends with the cycle's advance of R100. That the advance follows HLT too is the spec's own
decision (D10, log 15). That a register byte above 7 faults is the spec's decision D3 (log 11); that such a fault
writes nothing but RUN and FAULT is D8 (log 9). -/
def Obligations.HltLdiPrnTouchNoMemoryAndNoFlags : Prop :=
  ∀ (a b : Byte) (i : Instr) (s t : State), (i = .hlt ∨ i = .ldi a b ∨ i = .prn a) → exec i s = .next t →
    t.mem = s.mem ∧ t.fl = s.fl ∧
    (∀ m : Memory, exec i { s with mem := m } = .next { t with mem := m }) ∧
    setsPc (opcodeOf i) = false ∧
    (i.wellFormed = true → t.pc = s.pc + operandCount (opcodeOf i) + 1)

/-! ### Faults -/

/-- R86, R234, R236: the operand bytes that number a register are exactly 0 to 7; an instruction with another byte in a
register place writes nothing but `RUN <- 0`, `FAULT <- 4` (the spec's D3, D8; log 11, log 9), and one without never
changes `FAULT`. -/
def Obligations.RegisterOperandAboveSevenFaults : Prop :=
  (∀ b : Byte, b.toNat ≤ 7 ↔ ∃ r : RegIdx, b = regByte r ∧ b.toNat = r.val) ∧
  (∀ (i : Instr) (s : State), (∃ b ∈ i.regOperands, 7 < b.toNat) →
    exec i s = .next { s with run := false, fault := 4 }) ∧
  (∀ (i : Instr) (s t : State), (∀ b ∈ i.regOperands, b.toNat ≤ 7) → exec i s = .next t → t.fault = s.fault)

/-- R244, R246: which fault a step of a running core takes, in the fixed order: fetch range (D2, log 10), illegal
opcode, register operands (D3, log 11); codes and order are the spec's D8, D9 (log 9, log 14). -/
def Obligations.FaultPriorityOfAStep : Prop :=
  ∀ s : State, s.run = true → s.fault = 0 → ∃ t, step s = .next t ∧ t.fault =
    if s.pc > 253 then 3
    else if Memory.get s.mem s.pc ∈ ([0x01, 0x11] : List Byte) then 0
    else if Memory.get s.mem s.pc ∈ ([0x82, 0x47, 0x45, 0x46, 0x50, 0x54, 0x55, 0x56] : List Byte) then
      if (Memory.get s.mem (s.pc + 1)).toNat > 7 then 4 else 0
    else if Memory.get s.mem s.pc ∈ ([0xA0, 0xA2, 0xA7] : List Byte) then
      if (Memory.get s.mem (s.pc + 1)).toNat > 7 ∨ (Memory.get s.mem (s.pc + 2)).toNat > 7 then 4 else 0
    else 1

/-- R236: a step that takes a fault changes nothing but `RUN` and `FAULT` (D8, log 9). -/
def Obligations.FaultsArePrecise : Prop :=
  ∀ s t : State, step s = .next t → s.fault = 0 → t.fault ≠ 0 → t = { s with run := false, fault := t.fault }

/-- R231, R92: every opcode byte outside the 13 of R90 takes `IllegalInstruction` (code 1 is D8, log 9), whatever its
operand bytes. -/
def Obligations.IllegalOpcodeFaults : Prop :=
  ∀ s : State, s.run = true → s.pc ≤ 253 →
    Memory.get s.mem s.pc ∉ ([0x01, 0x82, 0x47, 0xA0, 0xA2, 0x45, 0x46, 0x50, 0x11, 0xA7, 0x54, 0x55, 0x56] : List Byte) →
    step s = .next { s with run := false, fault := 1 }

/-- R142, R232: no step raises `UnsupportedALUOp`, so no run from any launch shows its code (code 2 is D8, log 9),
though the ALU raises it on an operator it lacks. -/
def Obligations.UnsupportedAluOpIsNeverRaised : Prop :=
  (∀ op ra rb s, alu (.other op) ra rb s = .error (.unsupportedALUOp op) ∧ (Cause.unsupportedALUOp op).code = 2) ∧
  (∀ s t : State, step s = .next t → s.fault ≠ 2 → t.fault ≠ 2) ∧
  (∀ s : State, Reachable s → s.fault ≠ 2)

/-- R94, R282: a running core always completes its step with a next state, never waits and never refuses; a stopped
core takes no step (D15; the outcome's name is the model's, log 1). That a step completes with a fault at pc above 253
is the spec's decision D2 (log 10), on a register byte above 7 D3 (log 11); that a fault leaves a state is D8 (log 9).
-/
def Obligations.StepsExactlyWhileRunning : Prop :=
  ∀ s : State, (s.run = true → ∃ t, step s = .next t) ∧ (s.run = false → step s = .fault .coreStopped)

/-- R238, R94: once a step has taken a fault, no step follows it, so `FAULT` and the rest of the state stay as that step
left them. That a stopped core takes no step is D15 (log 1); that a fault stops the core is D8 (log 9). -/
def Obligations.FaultedCoreIsStoppedForGood : Prop :=
  ∀ s t : State, step s = .next t → s.fault = 0 → t.fault ≠ 0 → ∀ (n : Nat) (u : State),
    Sys2Proof.core.run (n + 1) t ≠ .next u

/-! ### The cycle -/

/-- R98: the step of a running core is the fetch, the dispatch and the instruction: `exec` of what the three bytes at
`pc` decode to. Nothing is added around `exec`, which holds the advance. The fault's form is the spec's decision D8
(log 9). -/
def Obligations.StepRunsTheDecodedInstruction : Prop :=
  ∀ (s : State) (i : Instr), s.run = true → s.pc ≤ 253 →
    (decodeFetched (Memory.get s.mem s.pc) (Memory.get s.mem (s.pc + 1)) (Memory.get s.mem (s.pc + 2)) = .ok i →
      step s = exec i s) ∧
    ((∀ j, decodeFetched (Memory.get s.mem s.pc) (Memory.get s.mem (s.pc + 1)) (Memory.get s.mem (s.pc + 2)) ≠ .ok j) →
      step s = .next (raise (.illegalInstruction (Memory.get s.mem s.pc)) s))

/-- R80, R88, R98: an instruction whose encoding lies at `pc` is the one executed, whatever bytes follow it. -/
def Obligations.EncodedInstructionIsExecuted : Prop :=
  ∀ (s : State) (i : Instr), s.run = true → s.pc ≤ 253 → s.Holds s.pc (encode i) → step s = exec i s

/-- R28, R96: LDI at 253 completes and leaves `pc = 256`; the next step takes `AddressOutOfRange` there (D2, D8; log
10, log 9). -/
def Obligations.SteppingOffTheEndFaults : Prop :=
  ∀ (r : RegIdx) (s : State), s.run = true → s.pc = 253 → s.fault = 0 →
    Memory.get s.mem 253 = 0x82 → Memory.get s.mem 254 = regByte r →
    ∃ t, step s = .next t ∧ t.pc = 256 ∧ t.run = true ∧ t.fault = 0 ∧ t.getReg r = Memory.get s.mem 255 ∧
      step t = .next { t with run := false, fault := 3 }

/-- R72: zero-filled memory is not harmless code: 0x00 at `pc` faults, by its opcode up to 253 and by its address
above (D2, D8; log 10, log 9). -/
def Obligations.ZeroMemoryIsNoInstruction : Prop :=
  ∀ s : State, s.run = true → Memory.get s.mem s.pc = 0 →
    step s = .next { s with run := false, fault := if s.pc ≤ 253 then 1 else 3 }

/-! ### Invariants and whole-machine rules -/

/-- R45, R33, R25: every step from a state that meets the invariant gives a state that meets it. The bound 256 on pc
is the spec's decisions D1, D2 (log 6, log 10); FAULT and its codes are D8 (log 9); the canonical form of memory is
the model's (log 20). -/
def Obligations.StepKeepsInvariant : Prop :=
  ∀ s t : State, s.Inv → step s = .next t → t.Inv

/-- R40, R45: every launch, and `State.reset`, meets the invariant. The bound 256 on pc is the spec's decisions D1, D2
(log 6, log 10); FAULT and its codes are D8 (log 9); the canonical form of memory is the model's (log 20). The launch
is D14 (log 22). -/
def Obligations.LaunchMeetsInvariant : Prop :=
  State.reset.Inv ∧ ∀ (l : Launch) (s : State), State.launch l = some s → s.Inv

/-- R33, R45: every state of every run, of any program from any launch, meets the invariant and is in exactly one of
the three conditions running, halted cleanly, faulted. The bound 256 on pc is the spec's decisions D1, D2 (log 6, log
10); FAULT and its codes are D8 (log 9); the canonical form of memory is the model's (log 20). The launch is D14 (log
22), and that a stopped core takes no step is D15 (log 1). -/
def Obligations.ReachableStatesAreLegal : Prop :=
  ∀ s : State, Reachable s → s.Inv ∧
    ((s.Running ∧ ¬ s.HaltedCleanly ∧ ¬ s.Faulted) ∨ (¬ s.Running ∧ s.HaltedCleanly ∧ ¬ s.Faulted) ∨
      (¬ s.Running ∧ ¬ s.HaltedCleanly ∧ s.Faulted))

/-- R45, R202: a CMP that completes leaves `FL` 1, 2 or 4 (bits 7:3 by D7), and from then on no step takes it
elsewhere. That a step which faults leaves FL is the spec's decision D8 (log 9). D7 is log 13. -/
def Obligations.ComparedFlagsPersist : Prop :=
  (∀ (a b : Byte) (s t : State), (Instr.cmp a b).wellFormed = true → exec (.cmp a b) s = .next t → t.Compared) ∧
  (∀ s t : State, s.Compared → step s = .next t → t.Compared)

/-- R34, R45: `OUT` grows by at most one byte a step, only by PRN, and the core never reads it: with any other record
in its place the step does the same and appends the same. That it happens only at pc up to 253, so that no PRN at 254
or 255 ever emits, is the spec's decision D2 (R96, R68; log 10). The record OUT is D12 (log 17); that a step which
faults emits nothing is D8 (log 9). -/
def Obligations.OutputIsWriteOnly : Prop :=
  ∀ s t : State, step s = .next t → ∃ emitted : List Byte,
    t.out = s.out ++ emitted ∧ emitted.length ≤ 1 ∧
    (emitted ≠ [] → s.pc ≤ 253 ∧ Memory.get s.mem s.pc = 0x47) ∧
    ∀ o : List Byte, step { s with out := o } = .next { t with out := o ++ emitted }

/-- R45, R54: `MEM` changes only in steps that execute PUSH or CALL, one cell a step, at `(SP - 1) mod 256` (D4). That
it happens only at pc up to 253, so that no PUSH or CALL at 254 or 255 ever stores, is the spec's decision D2 (R96,
R68; log 10). That a step which faults stores nothing is D8 (log 9). D4 is log 12. -/
def Obligations.MemoryChangesOnlyByPushAndCall : Prop :=
  ∀ (s t : State) (addr : Nat), step s = .next t → Memory.get t.mem addr ≠ Memory.get s.mem addr →
    s.pc ≤ 253 ∧ (Memory.get s.mem s.pc = 0x45 ∨ Memory.get s.mem s.pc = 0x50) ∧
    addr = (s.sp.toNat + 255) % 256

/-- R32, R280: `RUN` falls without a fault exactly when the step executes HLT; a step never sets `RUN`. That a HLT at
254 or 255 is no clean halt is the spec's decision D2 (R96, R122; log 10). FAULT and the faulted condition are D8 (log
9); that no step starts with RUN 0 is D15 (log 1). -/
def Obligations.CleanHaltOnlyByHlt : Prop :=
  ∀ s t : State, step s = .next t → s.fault = 0 →
    s.run = true ∧ (t.HaltedCleanly ↔ s.pc ≤ 253 ∧ Memory.get s.mem s.pc = 0x01) ∧
    (t.Running ∨ t.HaltedCleanly ∨ t.Faulted)

/-- R30: the only writer of `FL` is CMP, which assigns one of the three values whatever was there before (that bits
7:3 become 0 is the spec's own decision D7, log 13); the only readers are JEQ and JNE, and of `FL` they read only bit
0. That an instruction which faults on its register byte leaves FL and reads none of it is the spec's decisions D3, D8
(log 11, log 9). -/
def Obligations.EqualFlagIsTheOnlyFlagRead : Prop :=
  (∀ (i : Instr) (s t : State), exec i s = .next t → t.fl ≠ s.fl → ∃ a b, i = .cmp a b) ∧
  (∀ (a b f : Byte) (s t : State), (Instr.cmp a b).wellFormed = true → exec (.cmp a b) s = .next t →
    (t.fl = 1 ∨ t.fl = 2 ∨ t.fl = 4) ∧ exec (.cmp a b) { s with fl := f } = .next t) ∧
  (∀ (i : Instr) (f : Byte) (s t : State), exec i s = .next t → (∀ a b, i ≠ .cmp a b) →
    ((∃ r, i = .jeq r ∨ i = .jne r) → flagE f = flagE s.fl) →
    exec i { s with fl := f } = .next { t with fl := f })

/-- R30, R31: bits 7:1 of `FL` never reach anything else. Two states that agree but for those bits take the same step,
and the states after it again agree but for those bits, so no run can tell them apart: of `FL_RESET` only bit 0
matters. FL_RESET as an unconstrained parameter is the spec's decision D6 (log 3). -/
def Obligations.UpperFlagBitsNeverMatter : Prop :=
  ∀ (s t : State) (f : Byte), flagE f = flagE s.fl → step s = .next t →
    ∃ g, flagE g = flagE t.fl ∧ step { s with fl := f } = .next { t with fl := g }

/-! ### Pairs of steps -/

/-- R170: PUSH followed by POP into the same register restores every register and `SP`, R7 included (D11), when the
store does not land on the POP; the cell written keeps the value. The stack pointer wraps (D4). -/
def Obligations.PushThenPopRestores : Prop :=
  ∀ (r : RegIdx) (s : State), s.run = true → s.pc ≤ 251 →
    s.Holds s.pc (encode (.push (regByte r)) ++ encode (.pop (regByte r))) →
    (s.sp.toNat + 255) % 256 ≠ s.pc + 2 → (s.sp.toNat + 255) % 256 ≠ s.pc + 3 →
    ∃ m t, step s = .next m ∧ step m = .next t ∧
      t.pc = s.pc + 4 ∧ (∀ q, t.getReg q = s.getReg q) ∧
      Memory.get t.mem ((s.sp.toNat + 255) % 256) = (if r = 7 then s.sp - 1 else s.getReg r) ∧
      (∀ a, a ≠ (s.sp.toNat + 255) % 256 → Memory.get t.mem a = Memory.get s.mem a) ∧
      t.fl = s.fl ∧ t.run = true ∧ t.fault = s.fault ∧ t.out = s.out

/-- R190: a CALL completes, and a RET at any later state with the stack pointer the CALL left and the return address
still in its cell goes to the byte after the CALL and restores `SP`. The stack pointer wraps (D4). -/
def Obligations.CallThenRetReturns : Prop :=
  ∀ (r : RegIdx) (s : State), s.run = true → s.pc ≤ 253 → s.Holds s.pc (encode (.call (regByte r))) →
    ∃ m, step s = .next m ∧
      ∀ u : State, u.run = true → u.pc ≤ 253 → u.Holds u.pc (encode .ret) → u.sp = m.sp →
        Memory.get u.mem m.sp.toNat = Memory.get m.mem m.sp.toNat →
        ∃ t, step u = .next t ∧ t.pc = s.pc + 2 ∧ t.sp = s.sp

/-- R64: a PUSH executes as fetched even where it stores over its own bytes, and any later fetch of the cell reads the
byte stored (for R7 the decremented `SP`, D11; the address wraps, D4). -/
def Obligations.StoreIsSeenByLaterFetchOnly : Prop :=
  ∀ (r : RegIdx) (s : State), s.run = true → s.pc ≤ 253 → s.Holds s.pc (encode (.push (regByte r))) →
    ∃ t, step s = .next t ∧ t.pc = s.pc + 2 ∧ t.run = true ∧
      ∀ u : State, u.mem = t.mem → u.pc = (s.sp.toNat + 255) % 256 → u.pc ≤ 253 →
        ∃ f, fetch u = .ok f ∧ f.ir = (if r = 7 then s.sp - 1 else s.getReg r)
end

