-- ==== Sys2Proof/Laws/Decode.lean ====
section
/-! SUPPORT. The metadata bits of the 13 opcodes, and what the dispatcher answers, said once. -/

namespace Sys2Proof

@[simp] theorem operandCount_hlt : operandCount Opc.hlt = 0 := by decide
@[simp] theorem operandCount_ldi : operandCount Opc.ldi = 2 := by decide
@[simp] theorem operandCount_prn : operandCount Opc.prn = 1 := by decide
@[simp] theorem operandCount_add : operandCount Opc.add = 2 := by decide
@[simp] theorem operandCount_mul : operandCount Opc.mul = 2 := by decide
@[simp] theorem operandCount_push : operandCount Opc.push = 1 := by decide
@[simp] theorem operandCount_pop : operandCount Opc.pop = 1 := by decide
@[simp] theorem operandCount_call : operandCount Opc.call = 1 := by decide
@[simp] theorem operandCount_ret : operandCount Opc.ret = 0 := by decide
@[simp] theorem operandCount_cmp : operandCount Opc.cmp = 2 := by decide
@[simp] theorem operandCount_jmp : operandCount Opc.jmp = 1 := by decide
@[simp] theorem operandCount_jeq : operandCount Opc.jeq = 1 := by decide
@[simp] theorem operandCount_jne : operandCount Opc.jne = 1 := by decide

@[simp] theorem setsPc_hlt : setsPc Opc.hlt = false := by decide
@[simp] theorem setsPc_ldi : setsPc Opc.ldi = false := by decide
@[simp] theorem setsPc_prn : setsPc Opc.prn = false := by decide
@[simp] theorem setsPc_add : setsPc Opc.add = false := by decide
@[simp] theorem setsPc_mul : setsPc Opc.mul = false := by decide
@[simp] theorem setsPc_push : setsPc Opc.push = false := by decide
@[simp] theorem setsPc_pop : setsPc Opc.pop = false := by decide
@[simp] theorem setsPc_call : setsPc Opc.call = true := by decide
@[simp] theorem setsPc_ret : setsPc Opc.ret = true := by decide
@[simp] theorem setsPc_cmp : setsPc Opc.cmp = false := by decide
@[simp] theorem setsPc_jmp : setsPc Opc.jmp = true := by decide
@[simp] theorem setsPc_jeq : setsPc Opc.jeq = true := by decide
@[simp] theorem setsPc_jne : setsPc Opc.jne = true := by decide

/-- A byte that decodes is the key of a row of the opcode map, and the row's instruction is the answer. -/
theorem decodeFetched_mem {ir a b : Byte} {i : Instr} (h : decodeFetched ir a b = .ok i) :
    (ir, i) ∈ opcodeMap a b := by
  unfold decodeFetched at h
  split at h
  · rename_i row hrow
    cases h
    have hkey : row.1 = ir := by simpa using List.find?_some hrow
    exact hkey ▸ List.mem_of_find?_eq_some hrow
  · cases h

/-- A row of the opcode map is keyed by its instruction's opcode, and its instruction takes as many of the two operand
bytes as the key's top two bits say. -/
theorem opcodeMap_row {a b : Byte} : ∀ row ∈ opcodeMap a b,
    row.1 = opcodeOf row.2 ∧ row.2.operands = [a, b].take (operandCount row.1) := by
  simp [opcodeMap, opcodeOf, Instr.operands]

/-- A byte that decodes is the opcode of the instruction it gives, and the instruction takes as many of the two
operand bytes as the opcode's top two bits say. -/
theorem decodeFetched_ok {ir a b : Byte} {i : Instr} (h : decodeFetched ir a b = .ok i) :
    ir = opcodeOf i ∧ i.operands = [a, b].take (operandCount ir) :=
  opcodeMap_row _ (decodeFetched_mem h)

/-- The dispatcher refuses a byte only as an illegal opcode. -/
theorem decodeFetched_error {ir a b : Byte} {e : DecodeError} (h : decodeFetched ir a b = .error e) :
    e = .illegalOpcode ir := by
  unfold decodeFetched at h
  split at h <;> cases h
  rfl

/-- The opcode of an instruction followed by its operand bytes decodes to it, whatever fills the places it does
not use. -/
theorem decodeFetched_opcodeOf (i : Instr) (rest : List Byte) :
    decodeFetched (opcodeOf i) ((i.operands ++ rest).getD 0 0) ((i.operands ++ rest).getD 1 0) = .ok i := by
  cases i <;> rfl

/-- The opcode's count is the number of operand bytes. -/
theorem operandCount_opcodeOf (i : Instr) : operandCount (opcodeOf i) = i.operands.length := by
  cases i <;> simp [opcodeOf, Instr.operands]

theorem operands_length_le_two (i : Instr) : i.operands.length ≤ 2 := by
  cases i <;> simp [Instr.operands]

theorem operandCount_eq_div (ir : Byte) : operandCount ir = ir.toNat / 64 := by
  simp [operandCount, Nat.shiftRight_eq_div_pow]

end Sys2Proof
end

