-- ==== Sys2Proof/Laws/Memory.lean ====
section
/-! SUPPORT. The laws of memory as data: what a read sees after a write, that the canonical form is kept, and what
an image reads as. -/

namespace Sys2Proof.Machine

theorem get_erase_same (m : Memory) (addr : Nat) : Memory.get (m.erase addr) addr = Config.memBlank := by
  induction m with
  | nil => rfl
  | cons c m ih =>
    obtain ⟨a, v⟩ := c
    by_cases h : a = addr
    · subst h; simpa [Memory.erase] using ih
    · simpa [Memory.erase, Memory.get, h] using ih

theorem get_erase_ne {m : Memory} {addr a' : Nat} (hne : a' ≠ addr) :
    Memory.get (m.erase addr) a' = Memory.get m a' := by
  induction m with
  | nil => rfl
  | cons c m ih =>
    obtain ⟨a, v⟩ := c
    by_cases h : a = addr
    · subst h; simpa [Memory.erase, Memory.get, Ne.symm hne] using ih
    · by_cases h' : a = a'
      · subst h'; simp [Memory.erase, Memory.get, h]
      · simpa [Memory.erase, Memory.get, h, h'] using ih

theorem get_insert_ne {m : Memory} {addr a' : Nat} {v : Byte} (hne : a' ≠ addr) :
    Memory.get (m.insert addr v) a' = Memory.get m a' := by
  induction m with
  | nil => simp [Memory.insert, Memory.get, Ne.symm hne]
  | cons c m ih =>
    obtain ⟨a, w⟩ := c
    by_cases h : addr < a
    · simp [Memory.insert, Memory.get, h, Ne.symm hne]
    · by_cases h' : a = a'
      · subst h'; simp [Memory.insert, Memory.get, h]
      · simpa [Memory.insert, Memory.get, h, h'] using ih

theorem get_insert_same {m : Memory} {addr : Nat} {v : Byte} (hm : ∀ c ∈ m, c.1 ≠ addr) :
    Memory.get (m.insert addr v) addr = v := by
  induction m with
  | nil => simp [Memory.insert, Memory.get]
  | cons c m ih =>
    obtain ⟨a, w⟩ := c
    have ha : a ≠ addr := hm (a, w) (by simp)
    by_cases h : addr < a
    · simp [Memory.insert, Memory.get, h]
    · simpa [Memory.insert, Memory.get, h, ha] using ih fun c hc => hm c (by simp [hc])

theorem erase_no_entry (m : Memory) (addr : Nat) : ∀ c ∈ m.erase addr, c.1 ≠ addr := by
  intro c hc
  simpa using (List.mem_filter.mp hc).2

/-- A read of the address just written gives the byte written. -/
@[simp] theorem get_put_same (m : Memory) (addr : Nat) (v : Byte) : Memory.get (m.put addr v) addr = v := by
  unfold Memory.put
  split
  · rw [get_erase_same]; exact ‹v = _›.symm
  · exact get_insert_same (erase_no_entry m addr)

/-- A write leaves every other address alone. -/
theorem get_put_ne {m : Memory} {addr a' : Nat} {v : Byte} (hne : a' ≠ addr) :
    Memory.get (m.put addr v) a' = Memory.get m a' := by
  unfold Memory.put
  split
  · exact get_erase_ne hne
  · rw [get_insert_ne hne, get_erase_ne hne]

theorem get_put (m : Memory) (addr a' : Nat) (v : Byte) :
    Memory.get (m.put addr v) a' = if a' = addr then v else Memory.get m a' := by
  split
  · subst_vars; simp
  · exact get_put_ne ‹_›

/-! ### The canonical form is kept -/

theorem wfFrom_mono {m : Memory} {lo lo' : Nat} (h : lo' ≤ lo) (hm : Memory.wfFrom lo m = true) :
    Memory.wfFrom lo' m = true := by
  cases m with
  | nil => rfl
  | cons c m =>
    obtain ⟨a, v⟩ := c
    simp only [Memory.wfFrom, Bool.and_eq_true, decide_eq_true_eq] at hm ⊢
    exact ⟨⟨⟨by omega, hm.1.1.2⟩, hm.1.2⟩, hm.2⟩

theorem wfFrom_erase {m : Memory} {lo : Nat} (addr : Nat) (hm : Memory.wfFrom lo m = true) :
    Memory.wfFrom lo (m.erase addr) = true := by
  induction m generalizing lo with
  | nil => rfl
  | cons c m ih =>
    obtain ⟨a, v⟩ := c
    simp only [Memory.wfFrom, Bool.and_eq_true, decide_eq_true_eq] at hm
    have hrest := ih hm.2
    by_cases h : a = addr
    · subst h
      simpa [Memory.erase] using wfFrom_mono (by omega : lo ≤ a + 1) hrest
    · have : Memory.erase ((a, v) :: m) addr = (a, v) :: Memory.erase m addr := by
        simp [Memory.erase, h]
      rw [this]
      simp only [Memory.wfFrom, Bool.and_eq_true, decide_eq_true_eq]
      exact ⟨hm.1, hrest⟩

theorem wfFrom_insert {m : Memory} {lo addr : Nat} {v : Byte} (hm : Memory.wfFrom lo m = true)
    (hlo : lo ≤ addr) (ha : addr < Config.memSize) (hv : v ≠ Config.memBlank) (hno : ∀ c ∈ m, c.1 ≠ addr) :
    Memory.wfFrom lo (m.insert addr v) = true := by
  induction m generalizing lo with
  | nil => simp [Memory.insert, Memory.wfFrom, hlo, ha, hv]
  | cons c m ih =>
    obtain ⟨a, w⟩ := c
    have hne : a ≠ addr := hno (a, w) (by simp)
    simp only [Memory.wfFrom, Bool.and_eq_true, decide_eq_true_eq] at hm
    by_cases h : addr < a
    · simp only [Memory.insert, h, if_true, Memory.wfFrom, Bool.and_eq_true, decide_eq_true_eq]
      exact ⟨⟨⟨hlo, ha⟩, hv⟩, ⟨⟨⟨by omega, hm.1.1.2⟩, hm.1.2⟩, hm.2⟩⟩
    · simp only [Memory.insert, h, if_false, Memory.wfFrom, Bool.and_eq_true, decide_eq_true_eq]
      exact ⟨hm.1, ih hm.2 (by omega) fun c hc => hno c (by simp [hc])⟩

/-- A write inside the address space keeps the canonical form. -/
theorem wf_put {m : Memory} {addr : Nat} (v : Byte) (ha : addr < Config.memSize) (hm : Memory.wf m = true) :
    Memory.wf (m.put addr v) = true := by
  unfold Memory.put
  split
  · exact wfFrom_erase addr hm
  · exact wfFrom_insert (wfFrom_erase addr hm) (Nat.zero_le _) ha ‹_› (erase_no_entry m addr)

/-- Placing a table word inside the address space keeps the canonical form. -/
theorem wf_putTableWord {m : Memory} {addr : Nat} (nbits w : Nat) (ha : addr + 2 < Config.memSize)
    (hm : Memory.wf m = true) : Memory.wf (m.putTableWord addr nbits w) = true :=
  wf_put _ ha (wf_put _ (by omega) (wf_put _ (by omega) hm))

theorem wfFrom_ofImage {k : Nat} {bytes : List Byte} (h : k + bytes.length ≤ Config.memSize) :
    Memory.wfFrom k (Memory.ofImage k bytes) = true := by
  induction bytes generalizing k with
  | nil => rfl
  | cons v vs ih =>
    simp only [List.length_cons] at h
    have hrest := ih (k := k + 1) (by omega)
    by_cases hv : v = Config.memBlank
    · simpa [Memory.ofImage, hv] using wfFrom_mono (Nat.le_succ k) hrest
    · simp only [Memory.ofImage, hv, if_false, Memory.wfFrom, Bool.and_eq_true, decide_eq_true_eq]
      exact ⟨⟨⟨le_refl k, by omega⟩, hv⟩, hrest⟩

theorem wf_ofImage {bytes : List Byte} (h : bytes.length ≤ Config.memSize) :
    Memory.wf (Memory.ofImage 0 bytes) = true := wfFrom_ofImage (by omega)

/-! ### What a canonical memory reads as -/

theorem get_below {m : Memory} {lo addr : Nat} (hm : Memory.wfFrom lo m = true) (h : addr < lo) :
    Memory.get m addr = Config.memBlank := by
  induction m generalizing lo with
  | nil => rfl
  | cons c m ih =>
    obtain ⟨a, v⟩ := c
    simp only [Memory.wfFrom, Bool.and_eq_true, decide_eq_true_eq] at hm
    simpa [Memory.get, show a ≠ addr by omega] using ih hm.2 (by omega)

theorem get_ofImage (k : Nat) (bytes : List Byte) (addr : Nat) :
    Memory.get (Memory.ofImage k bytes) addr =
      if addr < k then Config.memBlank else bytes.getD (addr - k) Config.memBlank := by
  induction bytes generalizing k with
  | nil => simp [Memory.ofImage, Memory.get]
  | cons v vs ih =>
    rcases Nat.lt_trichotomy addr k with h | h | h
    · by_cases hv : v = Config.memBlank
      · simp [Memory.ofImage, hv, ih, h, show addr < k + 1 by omega]
      · simp [Memory.ofImage, Memory.get, hv, ih, h, show addr < k + 1 by omega, show k ≠ addr by omega]
    · subst h
      by_cases hv : v = Config.memBlank
      · simp [Memory.ofImage, hv, ih]
      · simp [Memory.ofImage, Memory.get, hv]
    · obtain ⟨d, rfl⟩ : ∃ d, addr = k + 1 + d := ⟨addr - (k + 1), by omega⟩
      have e : k + 1 + d - k = d + 1 := by omega
      by_cases hv : v = Config.memBlank
      · rw [Memory.ofImage, if_pos hv, ih, e, if_neg (by omega), if_neg (by omega)]; simp
      · rw [Memory.ofImage, if_neg hv, Memory.get, if_neg (by omega), ih, e, if_neg (by omega), if_neg (by omega)]
        simp

end Sys2Proof.Machine
end

