-- ==== Sys2Proof/Laws/State.lean ====
section
/-! SUPPORT. One lemma per field per update of the state, and how register reads see each update. -/

namespace Sys2Proof.Machine

variable (s : State) (r q : RegIdx) (v : Byte) (m : Memory) (n : Nat) (c : Cause)

/-! ### Register writes -/

@[simp] theorem setReg_mem : (s.setReg r v).mem = s.mem := rfl
@[simp] theorem setReg_pc : (s.setReg r v).pc = s.pc := rfl
@[simp] theorem setReg_fl : (s.setReg r v).fl = s.fl := rfl
@[simp] theorem setReg_run : (s.setReg r v).run = s.run := rfl
@[simp] theorem setReg_fault : (s.setReg r v).fault = s.fault := rfl
@[simp] theorem setReg_out : (s.setReg r v).out = s.out := rfl

@[simp] theorem getReg_setReg_same : (s.setReg r v).getReg r = v := by
  simp [State.getReg, State.setReg]

theorem getReg_setReg_ne {s : State} {r q : RegIdx} {v : Byte} (h : q ≠ r) :
    (s.setReg r v).getReg q = s.getReg q := by
  have : r.val ≠ q.val := fun e => h (Fin.ext e.symm)
  simp [State.getReg, State.setReg, Vector.getElem_set_ne, this]

theorem getReg_setReg : (s.setReg r v).getReg q = if q = r then v else s.getReg q := by
  split
  · subst_vars; simp
  · exact getReg_setReg_ne ‹_›

/-! ### Updates that leave the registers alone -/

@[simp] theorem setMem_mem : (s.setMem m).mem = m := rfl
@[simp] theorem setMem_pc : (s.setMem m).pc = s.pc := rfl
@[simp] theorem setMem_fl : (s.setMem m).fl = s.fl := rfl
@[simp] theorem setMem_run : (s.setMem m).run = s.run := rfl
@[simp] theorem setMem_fault : (s.setMem m).fault = s.fault := rfl
@[simp] theorem setMem_out : (s.setMem m).out = s.out := rfl
@[simp] theorem getReg_setMem : (s.setMem m).getReg r = s.getReg r := rfl
@[simp] theorem sp_setMem : (s.setMem m).sp = s.sp := rfl

@[simp] theorem setPc_mem : (s.setPc n).mem = s.mem := rfl
@[simp] theorem setPc_pc : (s.setPc n).pc = n := rfl
@[simp] theorem setPc_fl : (s.setPc n).fl = s.fl := rfl
@[simp] theorem setPc_run : (s.setPc n).run = s.run := rfl
@[simp] theorem setPc_fault : (s.setPc n).fault = s.fault := rfl
@[simp] theorem setPc_out : (s.setPc n).out = s.out := rfl
@[simp] theorem getReg_setPc : (s.setPc n).getReg r = s.getReg r := rfl
@[simp] theorem sp_setPc : (s.setPc n).sp = s.sp := rfl

@[simp] theorem setFl_mem : (s.setFl v).mem = s.mem := rfl
@[simp] theorem setFl_pc : (s.setFl v).pc = s.pc := rfl
@[simp] theorem setFl_fl : (s.setFl v).fl = v := rfl
@[simp] theorem setFl_run : (s.setFl v).run = s.run := rfl
@[simp] theorem setFl_fault : (s.setFl v).fault = s.fault := rfl
@[simp] theorem setFl_out : (s.setFl v).out = s.out := rfl
@[simp] theorem getReg_setFl : (s.setFl v).getReg r = s.getReg r := rfl
@[simp] theorem sp_setFl : (s.setFl v).sp = s.sp := rfl

@[simp] theorem halt_mem : (s.halt).mem = s.mem := rfl
@[simp] theorem halt_pc : (s.halt).pc = s.pc := rfl
@[simp] theorem halt_fl : (s.halt).fl = s.fl := rfl
@[simp] theorem halt_run : (s.halt).run = false := rfl
@[simp] theorem halt_fault : (s.halt).fault = s.fault := rfl
@[simp] theorem halt_out : (s.halt).out = s.out := rfl
@[simp] theorem getReg_halt : (s.halt).getReg r = s.getReg r := rfl
@[simp] theorem sp_halt : (s.halt).sp = s.sp := rfl

@[simp] theorem jump_mem : (s.jump v).mem = s.mem := rfl
@[simp] theorem jump_pc : (s.jump v).pc = v.toNat := rfl
@[simp] theorem jump_fl : (s.jump v).fl = s.fl := rfl
@[simp] theorem jump_run : (s.jump v).run = s.run := rfl
@[simp] theorem jump_fault : (s.jump v).fault = s.fault := rfl
@[simp] theorem jump_out : (s.jump v).out = s.out := rfl
@[simp] theorem getReg_jump : (s.jump v).getReg r = s.getReg r := rfl
@[simp] theorem sp_jump : (s.jump v).sp = s.sp := rfl

@[simp] theorem emit_mem : (s.emit v).mem = s.mem := rfl
@[simp] theorem emit_pc : (s.emit v).pc = s.pc := rfl
@[simp] theorem emit_fl : (s.emit v).fl = s.fl := rfl
@[simp] theorem emit_run : (s.emit v).run = s.run := rfl
@[simp] theorem emit_fault : (s.emit v).fault = s.fault := rfl
@[simp] theorem emit_out : (s.emit v).out = s.out ++ [v] := rfl
@[simp] theorem getReg_emit : (s.emit v).getReg r = s.getReg r := rfl
@[simp] theorem sp_emit : (s.emit v).sp = s.sp := rfl

@[simp] theorem raise_mem : (raise c s).mem = s.mem := rfl
@[simp] theorem raise_pc : (raise c s).pc = s.pc := rfl
@[simp] theorem raise_fl : (raise c s).fl = s.fl := rfl
@[simp] theorem raise_run : (raise c s).run = false := rfl
@[simp] theorem raise_fault : (raise c s).fault = c.code := rfl
@[simp] theorem raise_out : (raise c s).out = s.out := rfl
@[simp] theorem getReg_raise : (raise c s).getReg r = s.getReg r := rfl
@[simp] theorem sp_raise : (raise c s).sp = s.sp := rfl

/-! ### The stack pointer -/

@[simp] theorem decSp_mem : (s.decSp).mem = s.mem := rfl
@[simp] theorem decSp_pc : (s.decSp).pc = s.pc := rfl
@[simp] theorem decSp_fl : (s.decSp).fl = s.fl := rfl
@[simp] theorem decSp_run : (s.decSp).run = s.run := rfl
@[simp] theorem decSp_fault : (s.decSp).fault = s.fault := rfl
@[simp] theorem decSp_out : (s.decSp).out = s.out := rfl
@[simp] theorem incSp_mem : (s.incSp).mem = s.mem := rfl
@[simp] theorem incSp_pc : (s.incSp).pc = s.pc := rfl
@[simp] theorem incSp_fl : (s.incSp).fl = s.fl := rfl
@[simp] theorem incSp_run : (s.incSp).run = s.run := rfl
@[simp] theorem incSp_fault : (s.incSp).fault = s.fault := rfl
@[simp] theorem incSp_out : (s.incSp).out = s.out := rfl

@[simp] theorem sp_decSp : s.decSp.sp = s.sp - 1 := by simp [State.sp, State.decSp]
@[simp] theorem sp_incSp : s.incSp.sp = s.sp + 1 := by simp [State.sp, State.incSp]

/-- The decremented stack pointer as an address. -/
theorem toNat_sp_decSp : s.decSp.sp.toNat = (s.sp.toNat + 255) % 256 := by
  simp; omega

@[simp] theorem getReg_seven : s.getReg 7 = s.sp := rfl

theorem sp_setReg : (s.setReg r v).sp = if r = 7 then v else s.sp := by
  rw [← getReg_seven, getReg_setReg]
  simp [eq_comm]

theorem getReg_decSp : s.decSp.getReg q = if q = 7 then s.sp - 1 else s.getReg q := getReg_setReg s 7 q _

theorem getReg_incSp : s.incSp.getReg q = if q = 7 then s.sp + 1 else s.getReg q := getReg_setReg s 7 q _

theorem getReg_decSp_ne {s : State} {q : RegIdx} (h : q ≠ 7) : s.decSp.getReg q = s.getReg q :=
  getReg_setReg_ne h

theorem getReg_incSp_ne {s : State} {q : RegIdx} (h : q ≠ 7) : s.incSp.getReg q = s.getReg q :=
  getReg_setReg_ne h

end Sys2Proof.Machine
end

