-- ==== Sys2Proof/Laws/Ops.lean ====
section
/-! SUPPORT. One lemma per shared operation: register operands, memory accesses at a byte address, the fetch and the
end of a step. -/

namespace Sys2Proof.Machine

/-! ### Register operands -/

@[simp] theorem reg_regByte (r : RegIdx) : reg (regByte r) = .ok r := by
  revert r; decide

@[simp] theorem toNat_regByte (r : RegIdx) : (regByte r).toNat = r.val := by
  revert r; decide

theorem regByte_injective {r q : RegIdx} (h : regByte r = regByte q) : r = q :=
  Fin.ext (by simpa using congrArg BitVec.toNat h)

/-- A byte in range is the number of one register. -/
theorem exists_regByte {b : Byte} (h : b.toNat ≤ 7) : ∃ r, b = regByte r :=
  ⟨⟨b.toNat, by omega⟩, BitVec.eq_of_toNat_eq (by simp)⟩

theorem reg_above {b : Byte} (h : 7 < b.toNat) : reg b = .error (.registerIndexOutOfRange b) := by
  simp [reg, show ¬ b.toNat < 8 by omega]

/-- Every operand byte either numbers a register or raises. -/
theorem reg_cases (b : Byte) :
    (∃ r, b = regByte r) ∨ (7 < b.toNat ∧ reg b = .error (.registerIndexOutOfRange b)) := by
  rcases Nat.lt_or_ge 7 b.toNat with h | h
  · exact .inr ⟨h, reg_above h⟩
  · exact .inl (exists_regByte h)

@[simp] theorem regByteOk_regByte (r : RegIdx) : regByteOk (regByte r) = true := by
  revert r; decide

theorem regByteOk_above {b : Byte} (h : 7 < b.toNat) : regByteOk b = false := by
  simp [regByteOk]; omega

theorem wellFormed_iff {i : Instr} : i.wellFormed = true ↔ ∀ b ∈ i.regOperands, b.toNat ≤ 7 := by
  simp [Instr.wellFormed, regByteOk]

/-- To show something of every well-formed instruction, show it of each form with register numbers for operands. -/
theorem wellFormed_cases {P : Instr → Prop} {i : Instr} (h : i.wellFormed = true)
    (hlt : P .hlt) (ldi : ∀ r v, P (.ldi (regByte r) v)) (prn : ∀ r, P (.prn (regByte r)))
    (add : ∀ r q, P (.add (regByte r) (regByte q))) (mul : ∀ r q, P (.mul (regByte r) (regByte q)))
    (push : ∀ r, P (.push (regByte r))) (pop : ∀ r, P (.pop (regByte r)))
    (call : ∀ r, P (.call (regByte r))) (ret : P .ret) (cmp : ∀ r q, P (.cmp (regByte r) (regByte q)))
    (jmp : ∀ r, P (.jmp (regByte r))) (jeq : ∀ r, P (.jeq (regByte r))) (jne : ∀ r, P (.jne (regByte r))) :
    P i := by
  have ok : ∀ {b : Byte}, regByteOk b = true → ∃ r, b = regByte r := fun hb =>
    exists_regByte (by simpa [regByteOk] using hb)
  cases i with
  | hlt => exact hlt
  | ret => exact ret
  | ldi a v =>
    obtain ⟨r, rfl⟩ := ok (b := a) (by simpa [Instr.wellFormed, Instr.regOperands] using h)
    exact ldi r v
  | add a b | mul a b | cmp a b =>
    have hab : regByteOk a = true ∧ regByteOk b = true := by
      simpa [Instr.wellFormed, Instr.regOperands] using h
    obtain ⟨r, rfl⟩ := ok hab.1
    obtain ⟨q, rfl⟩ := ok hab.2
    first | exact add r q | exact mul r q | exact cmp r q
  | prn a | push a | pop a | call a | jmp a | jeq a | jne a =>
    obtain ⟨r, rfl⟩ := ok (b := a) (by simpa [Instr.wellFormed, Instr.regOperands] using h)
    first | exact prn r | exact push r | exact pop r | exact call r | exact jmp r | exact jeq r | exact jne r

/-! ### Memory accesses at a byte address -/

theorem byte_lt_memSize (b : Byte) : b.toNat < Config.memSize := b.isLt

/-- An address taken from a register is always in range (R68). -/
@[simp] theorem memRead_byte (s : State) (b : Byte) : memRead s b.toNat = .ok (Memory.get s.mem b.toNat) := by
  simp [memRead, byte_lt_memSize]

@[simp] theorem memWrite_byte (s : State) (b v : Byte) :
    memWrite s b.toNat v = .ok (s.setMem (Memory.put s.mem b.toNat v)) := by
  simp [memWrite, byte_lt_memSize]

@[simp] theorem loadAtSp_eq (s : State) : loadAtSp s = .ok (Memory.get s.mem s.sp.toNat) := memRead_byte s s.sp

@[simp] theorem storeAtSp_eq (s : State) (v : Byte) :
    storeAtSp s v = .ok (s.setMem (Memory.put s.mem s.sp.toNat v)) := memWrite_byte s s.sp v

theorem memRead_ok {s : State} {addr : Nat} (h : addr ≤ 255) : memRead s addr = .ok (Memory.get s.mem addr) :=
  if_pos (Nat.lt_succ_of_le h)

/-- A write that answers a state changes memory alone and keeps the canonical form. -/
theorem memWrite_cases {s t : State} {addr : Nat} {v : Byte} (h : memWrite s addr v = .ok t) :
    addr < Config.memSize ∧ t = s.setMem (Memory.put s.mem addr v) := by
  unfold memWrite at h
  split at h
  · cases h; exact ⟨‹_›, rfl⟩
  · cases h

/-- What a launch that exists is. -/
theorem launch_cases {l : Launch} {s : State} (h : State.launch l = some s) :
    l.program.length ≤ 256 ∧
      s = { mem := Memory.ofImage 0 l.program, regs := l.gpr.push Config.spReset, pc := 0, fl := l.fl,
            run := true, fault := 0, out := [] } := by
  unfold State.launch at h
  split at h
  · cases h; exact ⟨‹_›, rfl⟩
  · cases h

/-! ### The fetch -/

theorem fetch_ok {s : State} (h : s.pc ≤ 253) :
    fetch s = .ok ⟨Memory.get s.mem s.pc, Memory.get s.mem (s.pc + 1), Memory.get s.mem (s.pc + 2)⟩ := by
  have hp : ¬ s.pc > Config.lastFetch := Nat.not_lt.mpr h
  rw [fetch, if_neg hp, memRead_ok (by omega), memRead_ok (by omega), memRead_ok (by omega)]
  rfl

theorem fetch_above {s : State} (h : 253 < s.pc) : fetch s = .error (.addressOutOfRange s.pc) := by
  simp [fetch, Config.lastFetch, h]

/-! ### The end of a step -/

@[simp] theorem complete_ok (ir : Byte) (s s' : State) :
    complete ir s (.ok s') = .next (cycleAdvance ir s.pc s') := rfl

@[simp] theorem complete_error (ir : Byte) (s : State) (c : Cause) :
    complete ir s (.error c) = .next (raise c s) := rfl

/-- Whatever the handler does, the instruction answers a next state. -/
theorem complete_next (ir : Byte) (s : State) (h : Except Cause State) : ∃ t, complete ir s h = .next t := by
  cases h with
  | ok s' => exact ⟨_, rfl⟩
  | error c => exact ⟨_, rfl⟩

theorem cycleAdvance_skip {ir : Byte} (h : setsPc ir = true) (p : Nat) (s : State) : cycleAdvance ir p s = s := by
  simp [cycleAdvance, h]

theorem cycleAdvance_move {ir : Byte} (h : setsPc ir = false) (p : Nat) (s : State) :
    cycleAdvance ir p s = s.setPc (p + operandCount ir + 1) := by
  simp [cycleAdvance, h]

end Sys2Proof.Machine
end

