-- ==== Sys2Proof/Laws/Exec.lean ====
section
/-! SUPPORT. The next state of each instruction on register numbers, as one equation each; what an operand byte above
7 does; and that every instruction answers a next state. Later proofs cite these and unfold no meaning. -/

namespace Sys2Proof.Machine

variable (s : State) (r q : RegIdx)

@[simp] theorem alu_add : alu .add r q s = .ok (s.setReg r (s.getReg r + s.getReg q)) := rfl
@[simp] theorem alu_mul : alu .mul r q s = .ok (s.setReg r (s.getReg r * s.getReg q)) := rfl

theorem exec_hlt : exec .hlt s = .next (s.halt.setPc (s.pc + 1)) := by
  simp [exec, execHlt, cycleAdvance]

theorem exec_ldi (v : Byte) : exec (.ldi (regByte r) v) s = .next ((s.setReg r v).setPc (s.pc + 3)) := by
  simp [exec, execLdi, cycleAdvance, bind, Except.bind, pure, Except.pure]

theorem exec_prn : exec (.prn (regByte r)) s = .next ((s.emit (s.getReg r)).setPc (s.pc + 2)) := by
  simp [exec, execPrn, cycleAdvance, bind, Except.bind, pure, Except.pure]

theorem exec_add : exec (.add (regByte r) (regByte q)) s =
    .next ((s.setReg r (s.getReg r + s.getReg q)).setPc (s.pc + 3)) := by
  simp [exec, execAdd, cycleAdvance, bind, Except.bind]

theorem exec_mul : exec (.mul (regByte r) (regByte q)) s =
    .next ((s.setReg r (s.getReg r * s.getReg q)).setPc (s.pc + 3)) := by
  simp [exec, execMul, cycleAdvance, bind, Except.bind]

theorem exec_push : exec (.push (regByte r)) s =
    .next ((s.decSp.setMem (Memory.put s.mem s.decSp.sp.toNat (s.decSp.getReg r))).setPc (s.pc + 2)) := by
  simp [exec, execPush, cycleAdvance, bind, Except.bind]

theorem exec_pop : exec (.pop (regByte r)) s =
    .next ((s.setReg r (Memory.get s.mem s.sp.toNat)).incSp.setPc (s.pc + 2)) := by
  simp [exec, execPop, cycleAdvance, bind, Except.bind, pure, Except.pure]

theorem exec_call : exec (.call (regByte r)) s =
    .next ((s.decSp.setMem (Memory.put s.mem s.decSp.sp.toNat (BitVec.ofNat 8 (s.pc + 2)))).setPc
      (s.decSp.getReg r).toNat) := by
  simp [exec, execCall, cycleAdvance, bind, Except.bind, pure, Except.pure, State.jump]

theorem exec_ret : exec .ret s = .next (s.incSp.setPc (Memory.get s.mem s.sp.toNat).toNat) := by
  simp [exec, execRet, cycleAdvance, bind, Except.bind, pure, Except.pure]; rfl

theorem exec_cmp : exec (.cmp (regByte r) (regByte q)) s =
    .next ((s.setFl (compareFlags (s.getReg r) (s.getReg q))).setPc (s.pc + 3)) := by
  simp [exec, execCmp, cycleAdvance, bind, Except.bind, pure, Except.pure]

theorem exec_jmp : exec (.jmp (regByte r)) s = .next (s.setPc (s.getReg r).toNat) := by
  simp [exec, execJmp, cycleAdvance, bind, Except.bind, pure, Except.pure, State.jump]

theorem exec_jeq : exec (.jeq (regByte r)) s =
    .next (s.setPc (if flagE s.fl then (s.getReg r).toNat else s.pc + 2)) := by
  simp [exec, execJeq, cycleAdvance, bind, Except.bind, pure, Except.pure, jumpIf]

theorem exec_jne : exec (.jne (regByte r)) s =
    .next (s.setPc (if flagE s.fl then s.pc + 2 else (s.getReg r).toNat)) := by
  cases h : flagE s.fl <;>
    simp [exec, execJne, cycleAdvance, bind, Except.bind, pure, Except.pure, jumpIf, h]

/-- No instruction stops: a fault is a next state too. -/
theorem exec_next (i : Instr) : ∃ t, exec i s = .next t := by
  cases i <;>
    simp only [exec, execHlt, execLdi, execPrn, execAdd, execMul, execPush, execPop, execCall, execRet, execCmp,
      execJmp, execJeq, execJne] <;>
    exact complete_next _ _ _

/-- An instruction with an operand byte above 7 raises on one of its operand bytes. -/
theorem exec_illFormed {i : Instr} (h : i.wellFormed = false) :
    ∃ b, exec i s = .next (raise (.registerIndexOutOfRange b) s) := by
  have key : ∀ {b : Byte}, regByteOk b = false → reg b = .error (.registerIndexOutOfRange b) := fun hb =>
    reg_above (by simpa [regByteOk] using hb)
  cases i with
  | hlt | ret => cases h
  | ldi a _ | prn a | push a | pop a | call a | jmp a | jeq a | jne a =>
    have e : reg a = _ := key (by simpa [Instr.wellFormed, Instr.regOperands] using h)
    simp only [exec, execLdi, execPrn, execPush, execPop, execCall, execJmp, execJeq, execJne, e]
    exact ⟨a, rfl⟩
  | add a b | mul a b | cmp a b =>
    simp only [exec, execAdd, execMul, execCmp]
    rcases reg_cases a with ⟨r, rfl⟩ | ⟨-, e⟩
    · have e : reg b = _ := key (by simpa [Instr.wellFormed, Instr.regOperands] using h)
      simp only [reg_regByte, e]
      exact ⟨b, rfl⟩
    · simp only [e]
      exact ⟨a, rfl⟩

/-- What an instruction that answers `t` did: it had register numbers for register operands, or `t` is its state with
the register fault taken and nothing else changed. -/
theorem exec_cases {s t : State} {i : Instr} (h : exec i s = .next t) :
    i.wellFormed = true ∨ (i.wellFormed = false ∧ t = { s with run := false, fault := 4 }) := by
  cases hw : i.wellFormed with
  | true => exact .inl rfl
  | false =>
    obtain ⟨b, e⟩ := exec_illFormed s hw
    rw [e] at h
    cases h
    exact .inr ⟨rfl, rfl⟩

/-- What a well-formed instruction does to the status: `FAULT` stays, `RUN` falls by HLT alone, `FL` is written by CMP
alone. -/
theorem exec_status {s t : State} {i : Instr} (hw : i.wellFormed = true) (h : exec i s = .next t) :
    t.fault = s.fault ∧ (i ≠ .hlt → t.run = s.run) ∧ (i = .hlt → t.run = false) ∧
      ((∀ a b, i ≠ .cmp a b) → t.fl = s.fl) := by
  revert h
  refine wellFormed_cases
    (P := fun i => exec i s = .next t → t.fault = s.fault ∧ (i ≠ .hlt → t.run = s.run) ∧ (i = .hlt → t.run = false) ∧
      ((∀ a b, i ≠ .cmp a b) → t.fl = s.fl)) hw ?_ ?_ ?_ ?_ ?_ ?_ ?_ ?_ ?_ ?_ ?_ ?_ ?_ <;>
    intros <;> rename_i h <;>
    simp only [exec_hlt, exec_ldi, exec_prn, exec_add, exec_mul, exec_push, exec_pop, exec_call, exec_ret, exec_cmp,
      exec_jmp, exec_jeq, exec_jne] at h <;>
    cases h <;> simp

/-! ### The flags byte of a comparison -/

theorem compareFlags_cases (va vb : Byte) :
    (va.toNat = vb.toNat ∧ compareFlags va vb = 1) ∨ (va.toNat < vb.toNat ∧ compareFlags va vb = 4) ∨
      (vb.toNat < va.toNat ∧ compareFlags va vb = 2) := by
  unfold compareFlags
  split
  · exact .inl ⟨‹_›, rfl⟩
  · split
    · exact .inr (.inl ⟨‹_›, rfl⟩)
    · exact .inr (.inr ⟨by omega, rfl⟩)

/-- `FL.E` is the parity of the byte. -/
theorem flagE_eq_decide (fl : Byte) : flagE fl = decide (fl.toNat % 2 = 1) := by
  simp [flagE, BitVec.getLsbD]

end Sys2Proof.Machine
end

