-- ==== Sys2Proof/Laws/PerInstr.lean ====
section
/-! SUPPORT. The families of statements made per instruction (LAWS.json). -/

namespace Sys2Proof.Laws.MetadataBits

/-- The opcode's metadata bits agree with the instruction (R91): bits 7:6 are its number of operand bytes, and bit 4 is
set exactly for the five instructions whose handler assigns `pc`. -/
def Statement (i : Instr) : Prop :=
  operandCount (opcodeOf i) = i.operands.length ∧
    setsPc (opcodeOf i) = match i with
      | .call _ | .ret | .jmp _ | .jeq _ | .jne _ => true
      | .hlt | .ldi _ _ | .prn _ | .add _ _ | .mul _ _ | .push _ | .pop _ | .cmp _ _ => false

theorem hlt : Statement .hlt := ⟨operandCount_hlt, setsPc_hlt⟩
theorem ldi (reg imm : Byte) : Statement (.ldi reg imm) := ⟨operandCount_ldi, setsPc_ldi⟩
theorem prn (reg : Byte) : Statement (.prn reg) := ⟨operandCount_prn, setsPc_prn⟩
theorem add (regA regB : Byte) : Statement (.add regA regB) := ⟨operandCount_add, setsPc_add⟩
theorem mul (regA regB : Byte) : Statement (.mul regA regB) := ⟨operandCount_mul, setsPc_mul⟩
theorem push (reg : Byte) : Statement (.push reg) := ⟨operandCount_push, setsPc_push⟩
theorem pop (reg : Byte) : Statement (.pop reg) := ⟨operandCount_pop, setsPc_pop⟩
theorem call (reg : Byte) : Statement (.call reg) := ⟨operandCount_call, setsPc_call⟩
theorem ret : Statement .ret := ⟨operandCount_ret, setsPc_ret⟩
theorem cmp (regA regB : Byte) : Statement (.cmp regA regB) := ⟨operandCount_cmp, setsPc_cmp⟩
theorem jmp (reg : Byte) : Statement (.jmp reg) := ⟨operandCount_jmp, setsPc_jmp⟩
theorem jeq (reg : Byte) : Statement (.jeq reg) := ⟨operandCount_jeq, setsPc_jeq⟩
theorem jne (reg : Byte) : Statement (.jne reg) := ⟨operandCount_jne, setsPc_jne⟩

end Sys2Proof.Laws.MetadataBits
end

