-- ==== Sys2Proof/Laws/Step.lean ====
section
/-! SUPPORT. What a step can do, said once: the inversion lemma every invariant is derived from, and its forward
parts. -/

namespace Sys2Proof.Machine

variable {s t : State}

theorem step_stopped (h : s.run = false) : step s = .fault .coreStopped := by
  simp [step, h]

theorem step_above (hr : s.run = true) (h : 253 < s.pc) : step s = .next (raise (.addressOutOfRange s.pc) s) := by
  simp [step, hr, fetch_above h]

theorem step_decoded (hr : s.run = true) (h : s.pc ≤ 253) {i : Instr}
    (hd : decodeFetched (Memory.get s.mem s.pc) (Memory.get s.mem (s.pc + 1)) (Memory.get s.mem (s.pc + 2)) = .ok i) :
    step s = exec i s := by
  simp [step, hr, fetch_ok h, hd]

theorem step_illegal (hr : s.run = true) (h : s.pc ≤ 253) {e : DecodeError}
    (hd : decodeFetched (Memory.get s.mem s.pc) (Memory.get s.mem (s.pc + 1)) (Memory.get s.mem (s.pc + 2)) = .error e) :
    step s = .next (raise (.illegalInstruction (Memory.get s.mem s.pc)) s) := by
  simp [step, hr, fetch_ok h, hd]

/-- What a step that answers a next state did: the fetch failed, the opcode was illegal, or the decoded instruction
ran. -/
theorem step_cases (h : step s = .next t) :
    s.run = true ∧
      ((253 < s.pc ∧ t = raise (.addressOutOfRange s.pc) s) ∨
        (s.pc ≤ 253 ∧
          (decodeFetched (Memory.get s.mem s.pc) (Memory.get s.mem (s.pc + 1)) (Memory.get s.mem (s.pc + 2)) =
              .error (.illegalOpcode (Memory.get s.mem s.pc)) ∧
            t = raise (.illegalInstruction (Memory.get s.mem s.pc)) s)) ∨
        (s.pc ≤ 253 ∧ ∃ i,
          decodeFetched (Memory.get s.mem s.pc) (Memory.get s.mem (s.pc + 1)) (Memory.get s.mem (s.pc + 2)) = .ok i ∧
            exec i s = .next t)) := by
  cases hr : s.run with
  | false => rw [step_stopped hr] at h; cases h
  | true =>
    refine ⟨rfl, ?_⟩
    rcases Nat.lt_or_ge 253 s.pc with hp | hp
    · rw [step_above hr hp] at h
      cases h
      exact .inl ⟨hp, rfl⟩
    · cases hd : decodeFetched (Memory.get s.mem s.pc) (Memory.get s.mem (s.pc + 1)) (Memory.get s.mem (s.pc + 2)) with
      | error e =>
        rw [step_illegal hr hp hd] at h
        cases h
        exact .inr (.inl ⟨hp, by rw [decodeFetched_error hd], rfl⟩)
      | ok i =>
        rw [step_decoded hr hp hd] at h
        exact .inr (.inr ⟨hp, i, rfl, h⟩)

end Sys2Proof.Machine
end

