-- ==== Sys2Proof/Tests/Slice0.lean ====
section
/-! SUPPORT. The model's own tests: the decoder against words written out from R90, the well-formedness check on
ill-formed terms, single steps against the vectors of `95_test_vectors.md` (named in each comment), and a witness for
the hypotheses of each statement. -/

namespace Sys2Proof.Tests

open Sys2Proof.Machine

/-! ### Helpers -/

/-- The answer is a next state of which the check holds. -/
def nextIs (o : Answer) (p : State → Bool) : Bool :=
  match o with
  | .next t => p t
  | .fault _ => false
  | .refused _ => false

/-- A running state with code at `pc`, given R0 to R3 and SP, and `FL` filled with ones. -/
def code (pc : Nat) (bytes : List Byte) (x0 x1 x2 x3 sp : Byte) : State where
  mem := Memory.ofImage pc bytes
  regs := #v[x0, x1, x2, x3, 0, 0, 0, sp]
  pc := pc
  fl := 0xFF
  run := true
  fault := 0
  out := []

/-- The state with one more byte in memory. -/
def withByte (s : State) (addr : Nat) (v : Byte) : State := s.setMem (Memory.put s.mem addr v)

/-- The state stopped with a fault code. -/
def faulted (s : State) (c : BitVec 3) : State := { s with run := false, fault := c }

/-! ### Decoding: each constructor by its word from R90, R84 -/

theorem test_decode_hlt : decode [0b00000001] = .ok (.hlt, []) := by decide
theorem test_decode_ldi : decode [0b10000010, 0, 8] = .ok (.ldi 0 8, []) := by decide
theorem test_decode_prn : decode [0b01000111, 7] = .ok (.prn 7, []) := by decide
theorem test_decode_add : decode [0b10100000, 1, 2] = .ok (.add 1 2, []) := by decide
theorem test_decode_mul : decode [0b10100010, 1, 2] = .ok (.mul 1 2, []) := by decide
theorem test_decode_push : decode [0b01000101, 3] = .ok (.push 3, []) := by decide
theorem test_decode_pop : decode [0b01000110, 3] = .ok (.pop 3, []) := by decide
theorem test_decode_call : decode [0b01010000, 4] = .ok (.call 4, []) := by decide
theorem test_decode_ret : decode [0b00010001, 9] = .ok (.ret, [9]) := by decide
theorem test_decode_cmp : decode [0b10100111, 1, 2] = .ok (.cmp 1 2, []) := by decide
theorem test_decode_jmp : decode [0b01010100, 5] = .ok (.jmp 5, []) := by decide
theorem test_decode_jeq : decode [0b01010101, 5] = .ok (.jeq 5, []) := by decide
theorem test_decode_jne : decode [0b01010110, 5] = .ok (.jne 5, []) := by decide

/-- R92, vectors X-1 to X-4: near misses are illegal. -/
theorem test_decode_illegal : ([0x00, 0x21, 0xC1, 0x83, 0x57, 0xA1, 0x10, 0x02, 0xFF] : List Byte).all
    (fun ir => decodeFetched ir 0 0 == .error (.illegalOpcode ir)) = true := by decide
theorem test_decode_truncated : decode [0b10000010, 0] = .error .truncated := by decide
theorem test_decode_table_word : decodeTableWord 24 0x0301A0 = some (.add 1 3) := by decide
theorem test_decode_table_short : decodeTableWord 8 0x82 = some (.ldi 0 0) := by decide
theorem test_decode_table_cut : decodeTableWord 8 0x0301A0 = some (.add 0 0) := by decide
theorem test_encode_cmp : encode (.cmp 1 3) = [0xA7, 1, 3] := by decide

/-! ### Well-formedness refuses an operand above 7 in each register place (R86) -/

theorem test_illFormed : ([.ldi 8 0, .prn 9, .add 8 0, .add 0 8, .mul 8 0, .mul 0 255, .push 8, .pop 255, .call 8,
    .cmp 8 0, .cmp 0 8, .jmp 16, .jeq 9, .jne 8] : List Instr).all (fun i => !i.wellFormed) = true := by decide
theorem test_wellFormed_immediate : (Instr.ldi 7 255).wellFormed = true := by decide

/-! ### Single steps (`95_test_vectors.md`) -/

/-- H-2: a clean halt at 253. -/
theorem test_hlt_253 : nextIs (step (code 253 [0x01] 0 0 0 0 0xF4))
    (fun t => !t.run && t.fault == 0 && t.pc == 254) = true := by decide
/-- H-3: at 254 it is not executed. -/
theorem test_hlt_254 : nextIs (step (code 254 [0x01] 0 0 0 0 0xF4))
    (fun t => t == faulted (code 254 [0x01] 0 0 0 0 0xF4) 3) = true := by decide
/-- D-3. -/
theorem test_ldi_253 : nextIs (step (code 253 [0x82, 0x00, 0xFF] 0 0 0 0 0xF4))
    (fun t => t.getReg 0 == 0xFF && t.pc == 256 && t.run) = true := by decide
/-- D-4. -/
theorem test_ldi_register_8 : nextIs (step (code 0 [0x82, 0x08, 0x05] 0 0 0 0 0xF4))
    (fun t => t == faulted (code 0 [0x82, 0x08, 0x05] 0 0 0 0 0xF4) 4) = true := by decide
/-- X-9: the unused third byte is ignored. -/
theorem test_prn_unused_byte : nextIs (step (code 0 [0x47, 0x00, 0xFF] 1 0 0 0 0xF4))
    (fun t => t.out == [1] && t.pc == 2 && t.fault == 0) = true := by decide
/-- N-2. -/
theorem test_prn_sp : nextIs (step (code 0 [0x47, 0x07] 0 0 0 0 0xF4)) (fun t => t.out == [244]) = true := by decide
/-- A-1: the sum wraps and `FL` stays. -/
theorem test_add_wraps : nextIs (step (code 0 [0xA0, 0x00, 0x01] 0xFF 0x01 0 0 0xF4))
    (fun t => t.getReg 0 == 0 && t.getReg 1 == 1 && t.pc == 3 && t.fl == 0xFF) = true := by decide
/-- A-5. -/
theorem test_add_sp : nextIs (step (code 0 [0xA0, 0x07, 0x00] 0x10 0 0 0 0xF4)) (fun t => t.sp == 0x04) = true := by
  decide
/-- M-3. -/
theorem test_mul_low_byte : nextIs (step (code 0 [0xA2, 0x00, 0x01] 200 3 0 0 0xF4))
    (fun t => t.getReg 0 == 88 && t.getReg 1 == 3 && t.pc == 3) = true := by decide
/-- M-4: the same register twice. -/
theorem test_mul_square : nextIs (step (code 0 [0xA2, 0x00, 0x00] 0x0F 0 0 0 0xF4))
    (fun t => t.getReg 0 == 0xE1) = true := by decide
/-- K-3: the stack pointer wraps. -/
theorem test_push_wraps : nextIs (step (code 0 [0x45, 0x00] 0x5A 0 0 0 0x00))
    (fun t => t.sp == 0xFF && Memory.get t.mem 0xFF == 0x5A && t.pc == 2) = true := by decide
/-- K-5: PUSH R7 stores the decremented pointer. -/
theorem test_push_sp : nextIs (step (code 0 [0x45, 0x07] 0 0 0 0 0xF4))
    (fun t => t.sp == 0xF3 && Memory.get t.mem 0xF3 == 0xF3) = true := by decide
/-- K-4. -/
theorem test_pop_wraps : nextIs (step (withByte (code 0 [0x46, 0x01] 0 0 0 0 0xFF) 0xFF 0x5A))
    (fun t => t.getReg 1 == 0x5A && t.sp == 0x00 && t.pc == 2) = true := by decide
/-- K-7: POP R7 increments the loaded byte. -/
theorem test_pop_sp : nextIs (step (withByte (code 0 [0x46, 0x07] 0 0 0 0 0xF3) 0xF3 0x20))
    (fun t => t.sp == 0x21) = true := by decide
/-- L-3. -/
theorem test_call_253 : nextIs (step (code 253 [0x50, 0x01] 0 0x30 0 0 0xF4))
    (fun t => t.sp == 0xF3 && Memory.get t.mem 0xF3 == 0xFF && t.pc == 0x30) = true := by decide
/-- L-6: CALL R7 jumps to the decremented pointer. -/
theorem test_call_sp : nextIs (step (code 0 [0x50, 0x07] 0 0 0 0 0xF4))
    (fun t => t.sp == 0xF3 && Memory.get t.mem 0xF3 == 0x02 && t.pc == 0xF3) = true := by decide
/-- L-5. -/
theorem test_ret_wraps : nextIs (step (withByte (code 0x20 [0x11] 0 0 0 0 0xFF) 0xFF 0x66))
    (fun t => t.pc == 0x66 && t.sp == 0x00) = true := by decide
/-- L-8: RET on the empty stack. -/
theorem test_ret_empty : nextIs (step (code 0 [0x11] 0 0 0 0 0xF4)) (fun t => t.pc == 0 && t.sp == 0xF5) = true := by
  decide
/-- C-4: the comparison is unsigned. -/
theorem test_cmp_unsigned : nextIs (step (code 0 [0xA7, 0x00, 0x01] 0x80 0x7F 0 0 0xF4))
    (fun t => t.fl == 0x02 && t.pc == 3) = true := by decide
/-- C-2. -/
theorem test_cmp_less : nextIs (step (code 0 [0xA7, 0x00, 0x01] 3 7 0 0 0xF4)) (fun t => t.fl == 0x04) = true := by
  decide
/-- J-13, J-1: a jump to 254 completes and leaves `FL`. -/
theorem test_jmp_254 : nextIs (step (code 0x10 [0x54, 0x00] 0xFE 0 0 0 0xF4))
    (fun t => t.pc == 254 && t.fl == 0xFF && t.run) = true := by decide
/-- J-5. -/
theorem test_jeq_taken : nextIs (step (code 0x10 [0x55, 0x02] 0 0 0x40 0 0xF4)) (fun t => t.pc == 0x40) = true := by
  decide
/-- J-12: the operand is checked before the condition. -/
theorem test_jeq_register_9 : nextIs (step ((code 0x10 [0x55, 0x09] 0 0 0x40 0 0xF4).setFl 0x04))
    (fun t => t.fault == 4 && t.pc == 0x10 && !t.run) = true := by decide
/-- J-9. -/
theorem test_jne_taken : nextIs (step ((code 0x10 [0x56, 0x02] 0 0 0x40 0 0xF4).setFl 0x00))
    (fun t => t.pc == 0x40) = true := by decide
/-- J-11. -/
theorem test_jne_not_taken : nextIs (step ((code 253 [0x56, 0x02] 0 0 0x40 0 0xF4).setFl 0x01))
    (fun t => t.pc == 255) = true := by decide
/-- X-5: the range check outranks the illegal opcode. -/
theorem test_fault_priority : nextIs (step (code 254 [0x21] 0 0 0 0 0xF4)) (fun t => t.fault == 3) = true := by decide
/-- X-8, A-6: `a` is reported, not `b`. -/
theorem test_register_a_first : (do let r ← reg 9; let q ← reg 200; alu .add r q (code 0 [] 0 0 0 0 0)) =
    .error (.registerIndexOutOfRange 9) := by decide
/-- X-10. -/
theorem test_stopped : step (code 0 [0x01] 0 0 0 0 0xF4).halt = .fault .coreStopped := rfl
/-- P6-d: the PUSH stores over the next opcode, and the next fetch reads it. -/
theorem test_self_modifying : nextIs (step (code 6 [0x45, 0x00, 0x47, 0x00, 0x01] 1 0 0 0 0x09))
    (fun t => nextIs (step t) (fun u => !u.run && u.fault == 0 && u.pc == 9 && u.out == [])) = true := by decide
/-- R142: an operator the ALU lacks. -/
theorem test_alu_other : alu (.other 5) 0 1 (code 0 [] 0 0 0 0 0) = .error (.unsupportedALUOp 5) := by decide

/-! ### Reset, launch, the placed word -/

/-- R72, X-1: from reset with nothing placed the first step faults on 0x00. -/
theorem test_reset_step : nextIs (step State.reset) (fun t => t.fault == 1 && t.pc == 0 && !t.run) = true := by decide
/-- D-1 from `State.reset`. -/
theorem test_withFetchWord : nextIs (step (State.reset.withFetchWord 24 0x080082))
    (fun t => t.getReg 0 == 8 && t.pc == 3) = true := by decide
/-- JEQ from reset completes whatever `FL_RESET` is (R31). -/
theorem test_withFetchWord_jeq : nextIs (step (State.reset.withFetchWord 16 0x0055)) (fun t => t.run) = true := by decide
theorem test_launch_too_long : State.launch ⟨List.replicate 257 1, #v[0, 0, 0, 0, 0, 0, 0], 0⟩ = none :=
  if_neg (by rw [List.length_replicate]; decide)

/-! ### Witnesses: a state and operands that meet the hypotheses of each statement together -/

theorem nextIs_exists {o : Answer} {p : State → Bool} (h : nextIs o p = true) : ∃ t, o = .next t ∧ p t = true := by
  cases o with
  | next t => exact ⟨t, rfl, h⟩
  | fault _ => cases h
  | refused _ => cases h

/-- A running state in canonical form with one instruction at `pc`. -/
def s0 (pc : Nat) (bytes : List Byte) : State := code pc bytes 1 2 3 4 0xF4

theorem witness_DispatchMatchesWholeOpcodeByte :
    (0x00 : Byte) ∉ ([0x01, 0x82, 0x47, 0xA0, 0xA2, 0x45, 0x46, 0x50, 0x11, 0xA7, 0x54, 0x55, 0x56] : List Byte) := by
  decide
theorem witness_InstructionLayoutAndLength :
    (s0 253 []).pc ≤ 253 ∧ decode [0x82, 1, 2, 3] = .ok (.ldi 1 2, [3]) := by decide
theorem witness_EncodeOfDecode : decode [0x45, 3, 9] = .ok (.push 3, [9]) := by decide
theorem witness_LaunchEstablishesResetState :
    256 < (Launch.mk (List.replicate 257 1) #v[1, 2, 3, 4, 5, 6, 7] 9).program.length ∧
      (Launch.mk (List.replicate 256 1) #v[1, 2, 3, 4, 5, 6, 7] 9).program.length ≤ 256 ∧
      255 < (Launch.mk (List.replicate 256 1) #v[1, 2, 3, 4, 5, 6, 7] 9).program.length := by
  rw [List.length_replicate, List.length_replicate]; decide
theorem witness_ExecutionBeginsAtAddressZero :
    ∃ s, State.launch ⟨[0x82, 0, 8], #v[1, 2, 3, 4, 5, 6, 7], 9⟩ = some s := ⟨_, rfl⟩
theorem witness_MemoryReadsTheLastWrite : 255 ≤ 255 ∧ 255 < 256 ∧ 0 ≠ 255 := by decide
theorem witness_CanonicalMemoriesAreEqual :
    Memory.wf (Memory.put (Memory.put [] 255 1) 0 2) = true ∧ Memory.wf [(0, 2), (255, 1)] = true ∧
      (∀ a, Memory.get (Memory.put (Memory.put [] 255 1) 0 2) a = Memory.get [(0, 2), (255, 1)] a) ∧
      ∃ t, memWrite (s0 0 [0x01]) 255 7 = .ok t :=
  ⟨by decide, by decide, fun _ => rfl, _, rfl⟩
theorem witness_AluReadsBothThenWritesFirst : (1 : RegIdx) ≠ 0 := by decide
theorem witness_CallStoresReturnAddressAndJumps : (s0 253 [0x50, 7]).pc ≤ 253 := by decide
theorem witness_CycleAdvancesUnlessBitFour :
    (Instr.add 7 7).wellFormed = true ∧ (opcodeOf (.add 7 7)).toNat / 16 % 2 = 0 := by decide

theorem witness_FrameOfLdiAddMul :
    (∃ t, exec (.ldi 8 0) (s0 0 []) = .next t) ∧ (∃ t, exec (.add 1 1) (s0 0 []) = .next t) ∧
      (∃ t, exec (.mul 7 7) (s0 0 []) = .next t) ∧ regByte 0 ≠ 7 ∧ (Instr.mul 7 7).wellFormed = true :=
  ⟨exec_next _ _, exec_next _ _, exec_next _ _, by decide, by decide⟩
theorem witness_FrameOfHltPrnCmpAndJumps :
    (∃ t, exec .hlt (s0 0 []) = .next t) ∧ (∃ t, exec (.prn 7) (s0 0 []) = .next t) ∧
      (∃ t, exec (.cmp 1 8) (s0 0 []) = .next t) ∧ (∃ t, exec (.jmp 7) (s0 0 []) = .next t) ∧
      (∃ t, exec (.jeq 7) (s0 0 []) = .next t) ∧ (∃ t, exec (.jne 7) (s0 0 []) = .next t) ∧
      (Instr.jmp 7).wellFormed = true ∧ Instr.jmp 7 ≠ .hlt ∧ Instr.jmp 7 ≠ .prn 7 ∧ Instr.jmp 7 ≠ .cmp 7 0 :=
  ⟨exec_next _ _, exec_next _ _, exec_next _ _, exec_next _ _, exec_next _ _, exec_next _ _,
    by decide, by decide, by decide, by decide⟩
theorem witness_FrameOfPopRet :
    (∃ t, exec (.pop 7) (s0 0 []) = .next t) ∧ (∃ t, exec .ret (s0 0 []) = .next t) ∧ regByte 0 ≠ 7 ∧
      (0 : RegIdx) ≠ 7 ∧ (Instr.pop 7).wellFormed = true :=
  ⟨exec_next _ _, exec_next _ _, by decide, by decide, by decide⟩
theorem witness_FrameOfPushCall :
    (∃ t, exec (.push 7) (s0 0 []) = .next t) ∧ (∃ t, exec (.call 1) (s0 0 []) = .next t) ∧
      (s0 0 []).decSp.sp.toNat = 0xF3 ∧ 0xF4 ≠ 0xF3 ∧ (Instr.call 1).wellFormed = true :=
  ⟨exec_next _ _, exec_next _ _, by decide, by decide, by decide⟩
theorem witness_HltLdiPrnTouchNoMemoryAndNoFlags :
    (∃ t, exec .hlt (s0 0 []) = .next t) ∧ (∃ t, exec (.ldi 7 9) (s0 0 []) = .next t) ∧
      (∃ t, exec (.prn 8) (s0 0 []) = .next t) ∧ (Instr.ldi 7 9).wellFormed = true :=
  ⟨exec_next _ _, exec_next _ _, exec_next _ _, by decide⟩
theorem witness_RegisterOperandAboveSevenFaults :
    (∃ b ∈ (Instr.add 7 8).regOperands, 7 < b.toNat) ∧ (∀ b ∈ (Instr.add 7 7).regOperands, b.toNat ≤ 7) ∧
      ∃ t, exec (.add 7 7) (s0 0 []) = .next t :=
  ⟨by decide, by decide, exec_next _ _⟩

/-- One state on each side of each test of the priority, at the values where the clauses meet: `pc` 253 and 254,
register bytes 7 and 8. -/
theorem witness_FaultPriorityOfAStep :
    (s0 253 [0x47, 7]).run = true ∧ (s0 253 [0x47, 7]).fault = 0 ∧
      nextIs (step (s0 254 [0x47, 7])) (fun t => t.fault == 3) = true ∧
      nextIs (step (s0 253 [0x47, 7])) (fun t => t.fault == 0) = true ∧
      nextIs (step (s0 253 [0x47, 8])) (fun t => t.fault == 4) = true ∧
      nextIs (step (s0 253 [0xA0, 7, 8])) (fun t => t.fault == 4) = true ∧
      nextIs (step (s0 253 [0x11, 8, 8])) (fun t => t.fault == 0) = true ∧
      nextIs (step (s0 253 [0x00, 8, 8])) (fun t => t.fault == 1) = true := by decide
theorem witness_FaultsArePrecise : (s0 0 [0x00]).fault = 0 ∧ ∃ t, step (s0 0 [0x00]) = .next t ∧ (t.fault != 0) = true :=
  ⟨rfl, nextIs_exists (by decide)⟩
theorem witness_IllegalOpcodeFaults :
    (s0 253 [0x21]).run = true ∧ (s0 253 [0x21]).pc ≤ 253 ∧ Memory.get (s0 253 [0x21]).mem 253 ∉
      ([0x01, 0x82, 0x47, 0xA0, 0xA2, 0x45, 0x46, 0x50, 0x11, 0xA7, 0x54, 0x55, 0x56] : List Byte) := by decide
theorem reachable_reset : Reachable State.reset := .launch ⟨[], #v[0, 0, 0, 0, 0, 0, 0], Config.flReset⟩ _ rfl
theorem witness_UnsupportedAluOpIsNeverRaised :
    Reachable State.reset ∧ State.reset.fault ≠ 2 ∧ ∃ t, step State.reset = .next t ∧ (t.fault == 1) = true :=
  ⟨reachable_reset, by decide, nextIs_exists (by decide)⟩
theorem witness_StepsExactlyWhileRunning : (s0 0 [0x01]).run = true ∧ (s0 0 [0x01]).halt.run = false := by decide
theorem witness_FaultedCoreIsStoppedForGood :
    (s0 254 []).fault = 0 ∧ ∃ t, step (s0 254 []) = .next t ∧ (t.fault != 0) = true :=
  ⟨rfl, nextIs_exists (by decide)⟩
theorem witness_StepRunsTheDecodedInstruction :
    (s0 253 [0x82, 7, 9]).run = true ∧ (s0 253 [0x82, 7, 9]).pc ≤ 253 ∧
      decodeFetched (Memory.get (s0 253 [0x82, 7, 9]).mem 253) (Memory.get (s0 253 [0x82, 7, 9]).mem 254)
        (Memory.get (s0 253 [0x82, 7, 9]).mem 255) = .ok (.ldi 7 9) ∧
      ∀ j, decodeFetched 0x00 0 0 ≠ .ok j :=
  ⟨by decide, by decide, by decide, fun _ h => by cases h⟩
theorem witness_EncodedInstructionIsExecuted :
    (s0 253 [0xA7, 1, 3]).run = true ∧ (s0 253 [0xA7, 1, 3]).pc ≤ 253 ∧
      (s0 253 [0xA7, 1, 3]).Holds 253 (encode (.cmp 1 3)) :=
  ⟨by decide, by decide, by unfold State.Holds; decide⟩
theorem witness_SteppingOffTheEndFaults :
    (s0 253 [0x82, 7, 9]).run = true ∧ (s0 253 [0x82, 7, 9]).pc = 253 ∧ (s0 253 [0x82, 7, 9]).fault = 0 ∧
      Memory.get (s0 253 [0x82, 7, 9]).mem 253 = 0x82 ∧ Memory.get (s0 253 [0x82, 7, 9]).mem 254 = regByte 7 := by
  decide
theorem witness_ZeroMemoryIsNoInstruction :
    (s0 253 []).run = true ∧ Memory.get (s0 253 []).mem 253 = 0 ∧ (s0 254 []).run = true ∧
      Memory.get (s0 254 []).mem 254 = 0 := by decide
theorem inv_s0 : (s0 0 [0x45, 1]).Inv := ⟨by decide, by decide, by decide, by decide⟩
theorem witness_StepKeepsInvariant :
    (s0 0 [0x45, 1]).Inv ∧ ∃ t, step (s0 0 [0x45, 1]) = .next t ∧ (t.pc == 2) = true :=
  ⟨inv_s0, nextIs_exists (by decide)⟩
theorem witness_LaunchMeetsInvariant :
    ∃ s, State.launch ⟨[0x82, 0, 8], #v[1, 2, 3, 4, 5, 6, 7], 9⟩ = some s := ⟨_, rfl⟩
theorem witness_ReachableStatesAreLegal : Reachable State.reset := reachable_reset
theorem witness_ComparedFlagsPersist :
    (Instr.cmp 7 0).wellFormed = true ∧ (∃ t, exec (.cmp 7 0) (s0 0 []) = .next t) ∧
      ((s0 0 [0x55, 1]).setFl 4).Compared ∧
      ∃ t, step ((s0 0 [0x55, 1]).setFl 4) = .next t ∧ (t.pc == 2) = true :=
  ⟨by decide, exec_next _ _, by decide, nextIs_exists (by decide)⟩
theorem witness_OutputIsWriteOnly : ∃ t, step (s0 253 [0x47, 1]) = .next t ∧ (t.out == [2]) = true :=
  nextIs_exists (by decide)
theorem witness_MemoryChangesOnlyByPushAndCall :
    ∃ t, step (s0 253 [0x50, 1]) = .next t ∧
      (Memory.get t.mem 0xF3 != Memory.get (s0 253 [0x50, 1]).mem 0xF3) = true :=
  nextIs_exists (by decide)
theorem witness_CleanHaltOnlyByHlt :
    (s0 253 [0x01]).fault = 0 ∧ ∃ t, step (s0 253 [0x01]) = .next t ∧ decide t.HaltedCleanly = true :=
  ⟨rfl, nextIs_exists (by decide)⟩
theorem witness_EqualFlagIsTheOnlyFlagRead :
    (∃ t, exec (.cmp 1 1) (s0 0 []) = .next t ∧ (t.fl != (s0 0 []).fl) = true) ∧ (Instr.cmp 1 1).wellFormed = true ∧
      (∃ t, exec (.jeq 7) (s0 0 []) = .next t) ∧ (∀ a b, Instr.jeq 7 ≠ .cmp a b) ∧
      flagE 0x01 = flagE (s0 0 []).fl :=
  ⟨nextIs_exists (by decide), by decide, exec_next _ _, fun _ _ h => (by cases h), by decide⟩
theorem witness_UpperFlagBitsNeverMatter :
    flagE 0x01 = flagE (s0 0 [0x55, 1]).fl ∧ ∃ t, step (s0 0 [0x55, 1]) = .next t ∧ (t.pc == 2) = true :=
  ⟨by decide, nextIs_exists (by decide)⟩
theorem witness_PushThenPopRestores :
    (s0 251 [0x45, 7, 0x46, 7]).run = true ∧ (s0 251 [0x45, 7, 0x46, 7]).pc ≤ 251 ∧
      (s0 251 [0x45, 7, 0x46, 7]).Holds 251 (encode (.push (regByte 7)) ++ encode (.pop (regByte 7))) ∧
      ((s0 251 [0x45, 7, 0x46, 7]).sp.toNat + 255) % 256 ≠ 253 ∧
      ((s0 251 [0x45, 7, 0x46, 7]).sp.toNat + 255) % 256 ≠ 254 :=
  ⟨by decide, by decide, by unfold State.Holds; decide, by decide, by decide⟩
/-- The RET's state here is the state right after the CALL, which lands on a RET. -/
theorem witness_CallThenRetReturns :
    (withByte (s0 253 [0x50, 1]) 2 0x11).run = true ∧ (withByte (s0 253 [0x50, 1]) 2 0x11).pc ≤ 253 ∧
      (withByte (s0 253 [0x50, 1]) 2 0x11).Holds 253 (encode (.call (regByte 1))) ∧
      ∃ m, step (withByte (s0 253 [0x50, 1]) 2 0x11) = .next m ∧
        (m.run && decide (m.pc ≤ 253) && Memory.get m.mem m.pc == 0x11) = true :=
  ⟨by decide, by decide, by unfold State.Holds; decide, nextIs_exists (by decide)⟩
/-- The PUSH here stores over its own opcode. -/
theorem witness_StoreIsSeenByLaterFetchOnly :
    (code 6 [0x45, 0x00] 1 0 0 0 0x07).run = true ∧ (code 6 [0x45, 0x00] 1 0 0 0 0x07).pc ≤ 253 ∧
      (code 6 [0x45, 0x00] 1 0 0 0 0x07).Holds 6 (encode (.push (regByte 0))) ∧
      ((code 6 [0x45, 0x00] 1 0 0 0 0x07).sp.toNat + 255) % 256 = 6 :=
  ⟨by decide, by decide, by unfold State.Holds; decide, by decide⟩

end Sys2Proof.Tests
end

section
/-! PROOFS. The state: launch, invariants, and what each part of the state can and cannot influence (`10_state.md`).

Everything here is derived from one reading of a step, `step_faults_or_completes`: it takes a fault, or it completes an
instruction in one of the thirteen ways that `Completes` lists. -/

namespace Sys2Proof.Machine

variable {i : Instr} {s t : State}

/-! ### A completing instruction -/

/-- `Completes i s t`: `i` has register numbers for register operands and takes `s` to `t`, handler and advance
together (R100). Tied to `exec` by `Completes.exec_eq` and `completes_of_exec`. -/
inductive Completes : Instr → State → State → Prop
  | hlt (s : State) : Completes .hlt s (s.halt.setPc (s.pc + 1))
  | ldi (r : RegIdx) (v : Byte) (s : State) : Completes (.ldi (regByte r) v) s ((s.setReg r v).setPc (s.pc + 3))
  | prn (r : RegIdx) (s : State) : Completes (.prn (regByte r)) s ((s.emit (s.getReg r)).setPc (s.pc + 2))
  | add (r q : RegIdx) (s : State) :
      Completes (.add (regByte r) (regByte q)) s ((s.setReg r (s.getReg r + s.getReg q)).setPc (s.pc + 3))
  | mul (r q : RegIdx) (s : State) :
      Completes (.mul (regByte r) (regByte q)) s ((s.setReg r (s.getReg r * s.getReg q)).setPc (s.pc + 3))
  | push (r : RegIdx) (s : State) :
      Completes (.push (regByte r)) s
        ((s.decSp.setMem (Memory.put s.mem s.decSp.sp.toNat (s.decSp.getReg r))).setPc (s.pc + 2))
  | pop (r : RegIdx) (s : State) :
      Completes (.pop (regByte r)) s ((s.setReg r (Memory.get s.mem s.sp.toNat)).incSp.setPc (s.pc + 2))
  | call (r : RegIdx) (s : State) :
      Completes (.call (regByte r)) s
        ((s.decSp.setMem (Memory.put s.mem s.decSp.sp.toNat (BitVec.ofNat 8 (s.pc + 2)))).setPc
          (s.decSp.getReg r).toNat)
  | ret (s : State) : Completes .ret s (s.incSp.setPc (Memory.get s.mem s.sp.toNat).toNat)
  | cmp (r q : RegIdx) (s : State) :
      Completes (.cmp (regByte r) (regByte q)) s
        ((s.setFl (compareFlags (s.getReg r) (s.getReg q))).setPc (s.pc + 3))
  | jmp (r : RegIdx) (s : State) : Completes (.jmp (regByte r)) s (s.setPc (s.getReg r).toNat)
  | jeq (r : RegIdx) (s : State) :
      Completes (.jeq (regByte r)) s (s.setPc (if flagE s.fl then (s.getReg r).toNat else s.pc + 2))
  | jne (r : RegIdx) (s : State) :
      Completes (.jne (regByte r)) s (s.setPc (if flagE s.fl then s.pc + 2 else (s.getReg r).toNat))

theorem Completes.exec_eq (h : Completes i s t) : exec i s = .next t := by
  cases h with
  | hlt => exact exec_hlt s
  | ldi r v => exact exec_ldi s r v
  | prn r => exact exec_prn s r
  | add r q => exact exec_add s r q
  | mul r q => exact exec_mul s r q
  | push r => exact exec_push s r
  | pop r => exact exec_pop s r
  | call r => exact exec_call s r
  | ret => exact exec_ret s
  | cmp r q => exact exec_cmp s r q
  | jmp r => exact exec_jmp s r
  | jeq r => exact exec_jeq s r
  | jne r => exact exec_jne s r

theorem exists_completes (hw : i.wellFormed = true) (s : State) : ∃ t, Completes i s t :=
  wellFormed_cases (P := fun i => ∃ t, Completes i s t) hw
    ⟨_, .hlt s⟩ (fun r v => ⟨_, .ldi r v s⟩) (fun r => ⟨_, .prn r s⟩)
    (fun r q => ⟨_, .add r q s⟩) (fun r q => ⟨_, .mul r q s⟩) (fun r => ⟨_, .push r s⟩) (fun r => ⟨_, .pop r s⟩)
    (fun r => ⟨_, .call r s⟩) ⟨_, .ret s⟩ (fun r q => ⟨_, .cmp r q s⟩) (fun r => ⟨_, .jmp r s⟩)
    (fun r => ⟨_, .jeq r s⟩) (fun r => ⟨_, .jne r s⟩)

/-- A well-formed instruction does nothing but complete. -/
theorem completes_of_exec (hw : i.wellFormed = true) (h : exec i s = .next t) : Completes i s t := by
  obtain ⟨u, hu⟩ := exists_completes hw s
  have e : t = u := by simpa [hu.exec_eq, eq_comm] using h
  exact e ▸ hu

theorem Completes.wellFormed (h : Completes i s t) : i.wellFormed = true := by
  cases h <;> simp [Instr.wellFormed, Instr.regOperands]

/-! ### What a completing instruction does to each part of the state -/

theorem Completes.fault_eq (h : Completes i s t) : t.fault = s.fault := (exec_status h.wellFormed h.exec_eq).1

theorem Completes.run_eq (h : Completes i s t) (hi : i ≠ .hlt) : t.run = s.run :=
  (exec_status h.wellFormed h.exec_eq).2.1 hi

theorem Completes.fl_eq (h : Completes i s t) (hi : ∀ a b, i ≠ .cmp a b) : t.fl = s.fl :=
  (exec_status h.wellFormed h.exec_eq).2.2.2 hi

/-- The new `pc` is the advance of at most three from `pc`, or a byte (R25, R27). -/
theorem Completes.pc_le (h : Completes i s t) (hp : s.pc ≤ 253) : t.pc ≤ 256 := by
  have byte_le : ∀ b : Byte, b.toNat ≤ 256 := fun b => b.isLt.le
  cases h with
  | hlt | ldi | prn | add | mul | push | pop | cmp => simp; omega
  | call | ret | jmp => exact byte_le _
  | jeq r | jne r =>
    have := byte_le (s.getReg r)
    simp only [setPc_pc]
    split <;> omega

/-- Memory is written by PUSH and CALL alone, one byte at the decremented stack pointer (R54). -/
theorem Completes.mem_cases (h : Completes i s t) :
    t.mem = s.mem ∨
      (opcodeOf i = 0x45 ∨ opcodeOf i = 0x50) ∧ ∃ v, t.mem = Memory.put s.mem s.decSp.sp.toNat v := by
  cases h with
  | push => exact .inr ⟨.inl rfl, _, rfl⟩
  | call => exact .inr ⟨.inr rfl, _, rfl⟩
  | _ => exact .inl rfl

/-- PRN appends one byte whatever `OUT` holds; every other instruction neither writes nor reads `OUT`, so the same
constructor describes it beside any other record (R34). -/
theorem Completes.out_cases (h : Completes i s t) :
    (opcodeOf i = 0x47 ∧ ∃ v, t.out = s.out ++ [v] ∧
        ∀ o, Completes i { s with out := o } { t with out := o ++ [v] }) ∨
      (t.out = s.out ∧ ∀ o, Completes i { s with out := o } { t with out := o }) := by
  cases h with
  | prn r => exact .inl ⟨rfl, _, rfl, fun o => .prn r { s with out := o }⟩
  | _ => exact .inr ⟨rfl, fun o => by constructor⟩

/-- Every instruction but CMP carries `FL` along unread, JEQ and JNE all but its bit 0 (R30). -/
theorem Completes.setFl (h : Completes i s t) {f : Byte} (hi : ∀ a b, i ≠ .cmp a b)
    (hE : (∃ r, i = .jeq r ∨ i = .jne r) → flagE f = flagE s.fl) : Completes i (s.setFl f) (t.setFl f) := by
  cases h with
  | cmp => exact absurd rfl (hi _ _)
  | jeq r => rw [← hE ⟨_, .inl rfl⟩]; exact .jeq r (s.setFl f)
  | jne r => rw [← hE ⟨_, .inr rfl⟩]; exact .jne r (s.setFl f)
  | _ => constructor

/-- CMP assigns the whole of `FL`, so what it held before does not matter (R202). -/
theorem Completes.cmp_setFl {a b : Byte} (h : Completes (.cmp a b) s t) (f : Byte) :
    Completes (.cmp a b) (s.setFl f) t := by
  cases h with
  | cmp r q => exact .cmp r q (s.setFl f)

theorem Completes.cmp_compared {a b : Byte} (h : Completes (.cmp a b) s t) : t.Compared := by
  cases h with
  | cmp r q =>
    obtain ⟨-, e⟩ | ⟨-, e⟩ | ⟨-, e⟩ := compareFlags_cases (s.getReg r) (s.getReg q) <;>
      simp [State.Compared, e]

/-! ### A faulting instruction -/

theorem code_ne_zero (c : Cause) : c.code ≠ 0 := by
  cases c <;> simp [Cause.code]

theorem code_le_four (c : Cause) : c.code.toNat ≤ 4 := by
  cases c <;> simp [Cause.code]

/-- Which register byte was above 7 does not show in the state (R230). -/
theorem exec_of_illFormed (hw : i.wellFormed = false) (s : State) (b : Byte) :
    exec i s = .next (raise (.registerIndexOutOfRange b) s) := by
  obtain ⟨b', h⟩ := exec_illFormed s hw
  exact h

/-! ### A step -/

/-- The two states fetch alike: they agree on all a step reads before the instruction itself. -/
structure SameFetch (s s' : State) : Prop where
  mem : s'.mem = s.mem
  pc : s'.pc = s.pc
  run : s'.run = s.run

theorem sameFetch_setFl (s : State) (f : Byte) : SameFetch s (s.setFl f) := ⟨rfl, rfl, rfl⟩

theorem sameFetch_out (s : State) (o : List Byte) : SameFetch s { s with out := o } := ⟨rfl, rfl, rfl⟩

theorem run_of_step (h : step s = .next t) : s.run = true := (step_cases h).1

/-- A step takes a fault or completes the instruction whose opcode lies at `pc`, and every state that fetches alike
takes the same fault or runs the same instruction. -/
theorem step_faults_or_completes (h : step s = .next t) :
    (∃ c, t = raise c s ∧ ∀ s', SameFetch s s' → step s' = .next (raise c s')) ∨
      (s.pc ≤ 253 ∧ ∃ i, Memory.get s.mem s.pc = opcodeOf i ∧ Completes i s t ∧
        ∀ s', SameFetch s s' → step s' = exec i s') := by
  obtain ⟨hr, ⟨hp, rfl⟩ | ⟨hp, hd, rfl⟩ | ⟨hp, i, hd, hi⟩⟩ := step_cases h
  · exact .inl ⟨_, rfl, fun s' e => by rw [step_above (e.run.trans hr) (e.pc ▸ hp), e.pc]⟩
  · refine .inl ⟨_, rfl, fun s' e => ?_⟩
    rw [step_illegal (e.run.trans hr) (e.pc ▸ hp) (by rw [e.mem, e.pc]; exact hd), e.mem, e.pc]
  · have same : ∀ s', SameFetch s s' → step s' = exec i s' := fun s' e =>
      step_decoded (e.run.trans hr) (e.pc ▸ hp) (by rw [e.mem, e.pc]; exact hd)
    obtain hw | ⟨hw, rfl⟩ := exec_cases hi
    · exact .inr ⟨hp, i, (decodeFetched_ok hd).1, completes_of_exec hw hi, same⟩
    · exact .inl ⟨.registerIndexOutOfRange 0, rfl, fun s' e => (same s' e).trans (exec_of_illFormed hw s' 0)⟩

theorem step_hlt (hr : s.run = true) (hp : s.pc ≤ 253) (ho : Memory.get s.mem s.pc = 0x01) :
    step s = .next (s.halt.setPc (s.pc + 1)) := by
  rw [← exec_hlt]
  exact step_decoded hr hp (by rw [ho]; rfl)

theorem step_ldi (hr : s.run = true) (hp : s.pc ≤ 253) {r : RegIdx} (ho : Memory.get s.mem s.pc = 0x82)
    (ha : Memory.get s.mem (s.pc + 1) = regByte r) :
    step s = .next ((s.setReg r (Memory.get s.mem (s.pc + 2))).setPc (s.pc + 3)) := by
  rw [← exec_ldi]
  exact step_decoded hr hp (by rw [ho, ha]; rfl)

/-! ### The invariant -/

theorem inv_raise (h : s.Inv) (c : Cause) : (raise c s).Inv where
  memory := h.memory
  counter := h.counter
  code := code_le_four c
  status := by simp

theorem Completes.inv (h : Completes i s t) (hs : s.Inv) (hr : s.run = true) (hp : s.pc ≤ 253) : t.Inv where
  memory := by
    obtain e | ⟨-, v, e⟩ := h.mem_cases
    · exact e ▸ hs.memory
    · exact e ▸ wf_put v (byte_lt_memSize _) hs.memory
  counter := h.pc_le hp
  code := h.fault_eq ▸ hs.code
  status _ := h.fault_eq.trans (hs.status hr)

theorem inv_step (hs : s.Inv) (h : step s = .next t) : t.Inv := by
  obtain ⟨c, rfl, -⟩ | ⟨hp, i, -, hc, -⟩ := step_faults_or_completes h
  · exact inv_raise hs c
  · exact hc.inv hs (run_of_step h) hp

theorem inv_launch {l : Launch} (h : State.launch l = some s) : s.Inv := by
  obtain ⟨hlen, rfl⟩ := launch_cases h
  exact ⟨wf_ofImage hlen, by simp, by simp, fun _ => rfl⟩

theorem launch_empty_eq_reset : State.launch ⟨[], #v[0, 0, 0, 0, 0, 0, 0], Config.flReset⟩ = some State.reset := rfl

theorem Reachable.inv (h : Reachable s) : s.Inv := by
  induction h with
  | launch l s hl => exact inv_launch hl
  | step s t _ hst ih => exact inv_step ih hst

/-- The invariant leaves exactly the three readable conditions of R33. -/
theorem State.Inv.one_condition (h : s.Inv) :
    (s.Running ∧ ¬ s.HaltedCleanly ∧ ¬ s.Faulted) ∨ (¬ s.Running ∧ s.HaltedCleanly ∧ ¬ s.Faulted) ∨
      (¬ s.Running ∧ ¬ s.HaltedCleanly ∧ s.Faulted) := by
  cases hr : s.run with
  | true => simp [State.Running, State.HaltedCleanly, State.Faulted, hr, h.status hr]
  | false => simpa [State.Running, State.HaltedCleanly, State.Faulted, hr] using em (s.fault = 0)

/-! ### The obligations on invariants -/

/-- Settles O43: a fault keeps the invariant, and so does each completing instruction. -/
theorem stepKeepsInvariant : Obligations.StepKeepsInvariant := fun _ _ => inv_step

/-- Settles O44: an image of at most 256 bytes is a canonical memory. -/
theorem launchMeetsInvariant : Obligations.LaunchMeetsInvariant :=
  ⟨inv_launch launch_empty_eq_reset, fun _ _ => inv_launch⟩

/-- Settles O45, by induction on the run. -/
theorem reachableStatesAreLegal : Obligations.ReachableStatesAreLegal := fun _ h => ⟨h.inv, h.inv.one_condition⟩

/-- Settles O48: only PUSH and CALL store, and a store leaves every other address alone. -/
theorem memoryChangesOnlyByPushAndCall : Obligations.MemoryChangesOnlyByPushAndCall := by
  intro s t addr h hne
  obtain ⟨c, rfl, -⟩ | ⟨hp, i, ho, hc, -⟩ := step_faults_or_completes h
  · exact absurd rfl hne
  · obtain e | ⟨hi, v, e⟩ := hc.mem_cases
    · exact absurd (by rw [e]) hne
    · refine ⟨hp, ho ▸ hi, ?_⟩
      rw [← toNat_sp_decSp]
      by_contra ha
      exact hne (by rw [e, get_put_ne ha])

/-- Settles O49: a fault leaves a nonzero code, and of the completing instructions HLT alone clears `RUN`. -/
theorem cleanHaltOnlyByHlt : Obligations.CleanHaltOnlyByHlt := by
  intro s t h hf
  have hr := run_of_step h
  refine ⟨hr, ⟨fun ⟨htr, htf⟩ => ?_, fun ⟨hp, ho⟩ => ?_⟩, ?_⟩
  · obtain ⟨c, rfl, -⟩ | ⟨hp, i, ho, hc, -⟩ := step_faults_or_completes h
    · exact absurd htf (code_ne_zero c)
    · have hi : i = .hlt := by
        by_contra hne
        simp [hc.run_eq hne, hr] at htr
      exact ⟨hp, by rw [ho, hi]; rfl⟩
  · rw [step_hlt hr hp ho] at h
    cases h
    exact ⟨rfl, hf⟩
  · obtain ⟨c, rfl, -⟩ | ⟨-, i, -, hc, -⟩ := step_faults_or_completes h
    · exact .inr (.inr ⟨rfl, code_ne_zero c⟩)
    · have htf : t.fault = 0 := hc.fault_eq.trans hf
      cases htr : t.run with
      | true => exact .inl ⟨htr, htf⟩
      | false => exact .inr (.inl ⟨htr, htf⟩)

/-! ### The obligations on what is written and never read -/

/-- Settles O47: a fault emits nothing, PRN one byte, and no instruction looks at `OUT`. -/
theorem outputIsWriteOnly : Obligations.OutputIsWriteOnly := by
  intro s t h
  obtain ⟨c, rfl, same⟩ | ⟨hp, i, ho, hc, same⟩ := step_faults_or_completes h
  · refine ⟨[], by simp, by simp, by simp, fun o => ?_⟩
    rw [same _ (sameFetch_out s o), List.append_nil]
    rfl
  · obtain ⟨hi, v, e, hout⟩ | ⟨e, hout⟩ := hc.out_cases
    · exact ⟨[v], e, by simp, fun _ => ⟨hp, ho.trans hi⟩, fun o =>
        (same _ (sameFetch_out s o)).trans (hout o).exec_eq⟩
    · refine ⟨[], by simp [e], by simp, by simp, fun o => ?_⟩
      rw [same _ (sameFetch_out s o), List.append_nil]
      exact (hout o).exec_eq

/-- Settles O51: CMP makes the two flag bytes equal, anything else carries each along unread but for bit 0. -/
theorem upperFlagBitsNeverMatter : Obligations.UpperFlagBitsNeverMatter := by
  intro s t f hE h
  obtain ⟨c, rfl, same⟩ | ⟨-, i, -, hc, same⟩ := step_faults_or_completes h
  · exact ⟨f, hE, same _ (sameFetch_setFl s f)⟩
  · by_cases hi : ∃ a b, i = .cmp a b
    · obtain ⟨a, b, rfl⟩ := hi
      exact ⟨t.fl, rfl, (same _ (sameFetch_setFl s f)).trans (hc.cmp_setFl f).exec_eq⟩
    · have hi' : ∀ a b, i ≠ .cmp a b := fun a b e => hi ⟨a, b, e⟩
      exact ⟨f, by rw [hE, hc.fl_eq hi'],
        (same _ (sameFetch_setFl s f)).trans (hc.setFl hi' fun _ => hE).exec_eq⟩

/-- Settles O50: the writer and the readers of `FL` among all instructions, the ill-formed ones included. -/
theorem equalFlagIsTheOnlyFlagRead : Obligations.EqualFlagIsTheOnlyFlagRead := by
  refine ⟨fun i s t h hne => ?_, fun a b f s t hw h => ?_, fun i f s t h hi hE => ?_⟩
  · by_contra hno
    have hi : ∀ a b, i ≠ .cmp a b := fun a b e => hno ⟨a, b, e⟩
    obtain hw | ⟨-, rfl⟩ := exec_cases h
    · exact hne ((completes_of_exec hw h).fl_eq hi)
    · exact hne rfl
  · have hc := completes_of_exec hw h
    exact ⟨hc.cmp_compared, (hc.cmp_setFl f).exec_eq⟩
  · obtain hw | ⟨hw, rfl⟩ := exec_cases h
    · exact ((completes_of_exec hw h).setFl hi hE).exec_eq
    · exact exec_of_illFormed hw (s.setFl f) 0

/-- Settles O46: CMP assigns one of the three values, and nothing else writes `FL`. -/
theorem comparedFlagsPersist : Obligations.ComparedFlagsPersist := by
  refine ⟨fun a b s t hw h => (completes_of_exec hw h).cmp_compared, fun s t hs h => ?_⟩
  obtain ⟨c, rfl, -⟩ | ⟨-, i, -, hc, -⟩ := step_faults_or_completes h
  · exact hs
  · by_cases hi : ∃ a b, i = .cmp a b
    · obtain ⟨a, b, rfl⟩ := hi
      exact hc.cmp_compared
    · have e : t.fl = s.fl := hc.fl_eq fun a b e => hi ⟨a, b, e⟩
      simpa only [State.Compared, e] using hs

/-! ### The obligations on the launch and the end of memory -/

/-- Settles O6: the image reads as the program's bytes and blank after them, and `SP` stands after the seven launch
registers. -/
theorem launchEstablishesResetState : Obligations.LaunchEstablishesResetState := by
  intro l
  refine ⟨fun h => if_neg (Nat.not_le.mpr h), fun h => ⟨_, if_pos h, ?_⟩⟩
  refine ⟨fun a ha => ?_, fun a ha => ?_, fun k hk => ?_, ?_, rfl, rfl, rfl, rfl, rfl⟩
  · simp [get_ofImage, ha]
  · simp [get_ofImage, ha, Config.memBlank]
  · exact Vector.getElem_push_lt hk
  · exact Vector.getElem_push_eq

/-- Settles O8: the image of no bytes is the empty memory. -/
theorem resetIsTheEmptyLaunch : Obligations.ResetIsTheEmptyLaunch := launch_empty_eq_reset

/-- Settles O41: LDI's advance from 253 is 256, where the fetch is out of range. -/
theorem steppingOffTheEndFaults : Obligations.SteppingOffTheEndFaults := by
  intro r s hr hpc hf ho ha
  have hstep : step s = .next ((s.setReg r (Memory.get s.mem 255)).setPc 256) := by
    simpa [hpc] using step_ldi hr (by omega) (by rwa [hpc]) (by rwa [hpc])
  exact ⟨_, hstep, rfl, hr, hf, by simp, step_above hr (by simp)⟩

end Sys2Proof.Machine
end

section
/-! PROOFS. Memory: read after write, the faithfulness of the canonical form, and what the fetch finds in the cells
(`20_memory.md`). -/

namespace Sys2Proof.Machine

variable {i : Instr} {s : State} {addr a : Nat} {v : Byte}

/-! ### Reads and writes -/

theorem memWrite_ok (h : addr ≤ 255) : memWrite s addr v = .ok (s.setMem (Memory.put s.mem addr v)) :=
  if_pos (Nat.lt_succ_of_le h)

theorem memRead_above (h : 255 < addr) : memRead s addr = .error (.addressOutOfRange addr) :=
  if_neg (Nat.not_lt.mpr h)

theorem memWrite_above (h : 255 < addr) : memWrite s addr v = .error (.addressOutOfRange addr) :=
  if_neg (Nat.not_lt.mpr h)

theorem memRead_put_same (h : addr ≤ 255) : memRead (s.setMem (Memory.put s.mem addr v)) addr = .ok v := by
  rw [memRead_ok h, setMem_mem, get_put_same]

/-- A write does not change what a read elsewhere answers, the fault of one out of range included (R53). -/
theorem memRead_put_ne (h : a ≠ addr) : memRead (s.setMem (Memory.put s.mem addr v)) a = memRead s a := by
  rw [memRead, setMem_mem, get_put_ne h, memRead]

/-! ### The canonical form -/

theorem wfFrom_cons {lo : Nat} {m : Memory} : Memory.wfFrom lo ((a, v) :: m) = true ↔
    lo ≤ a ∧ a < Config.memSize ∧ v ≠ Config.memBlank ∧ Memory.wfFrom (a + 1) m = true := by
  simp [Memory.wfFrom, and_assoc]

@[simp] theorem get_cons_same (m : Memory) (a : Nat) (v : Byte) : Memory.get ((a, v) :: m) a = v := if_pos rfl

theorem get_cons_ne {m : Memory} {a' : Nat} (h : a ≠ a') : Memory.get ((a, v) :: m) a' = Memory.get m a' := if_neg h

/-- Below the first entry of a canonical memory every address reads blank. -/
theorem head_le_of_get_ne_blank {lo : Nat} {m : Memory} {a' : Nat} (hm : Memory.wfFrom lo ((a, v) :: m) = true)
    (h : Memory.get ((a, v) :: m) a' ≠ Config.memBlank) : a ≤ a' := by
  have hself : Memory.wfFrom a ((a, v) :: m) = true := wfFrom_cons.mpr ⟨le_rfl, (wfFrom_cons.mp hm).2⟩
  by_contra hlt
  exact h (get_below hself (Nat.not_le.mp hlt))

/-- A canonical memory is determined by what it reads as: its first entry is at the lowest address that does not read
blank, and the entries after it read blank up to that address. -/
theorem wfFrom_ext {lo : Nat} {m n : Memory} (hm : Memory.wfFrom lo m = true) (hn : Memory.wfFrom lo n = true)
    (h : ∀ a, Memory.get m a = Memory.get n a) : m = n := by
  induction m generalizing lo n with
  | nil =>
    cases n with
    | nil => rfl
    | cons d n =>
      obtain ⟨b, w⟩ := d
      obtain ⟨-, -, hw, -⟩ := wfFrom_cons.mp hn
      exact absurd ((get_cons_same n b w).symm.trans (h b).symm) hw
  | cons c m ih =>
    obtain ⟨a, v⟩ := c
    obtain ⟨-, -, hv, hm'⟩ := wfFrom_cons.mp hm
    cases n with
    | nil => exact absurd ((get_cons_same m a v).symm.trans (h a)) hv
    | cons d n =>
      obtain ⟨b, w⟩ := d
      obtain ⟨-, -, hw, hn'⟩ := wfFrom_cons.mp hn
      have hba : b ≤ a := head_le_of_get_ne_blank hn (by rw [← h a, get_cons_same]; exact hv)
      have hab : a ≤ b := head_le_of_get_ne_blank hm (by rw [h b, get_cons_same]; exact hw)
      obtain rfl : a = b := Nat.le_antisymm hab hba
      obtain rfl : v = w := by simpa using h a
      have hrest : ∀ c, Memory.get m c = Memory.get n c := fun c => by
        by_cases hc : a = c
        · rw [get_below hm' (by omega), get_below hn' (by omega)]
        · rw [← get_cons_ne hc, h c, get_cons_ne hc]
      rw [ih hm' hn' hrest]

/-! ### The instruction that lies at `pc` -/

/-- The dispatcher gives an instruction for its opcode and any two bytes that begin with its operand bytes (R93). -/
theorem decodeFetched_of_operands {a b : Byte} (h : i.operands = [a, b].take i.operands.length) :
    decodeFetched (opcodeOf i) a b = .ok i := by
  have e : i.operands ++ [a, b].drop i.operands.length = [a, b] :=
    (congrArg (· ++ _) h).trans (List.take_append_drop _ _)
  simpa [e] using decodeFetched_opcodeOf i ([a, b].drop i.operands.length)

/-- A running core at `pc` up to 253 runs the instruction whose encoding lies at `pc` (R96, R98). -/
theorem step_of_holds (hr : s.run = true) (hp : s.pc ≤ 253) (h : s.Holds s.pc (encode i)) : step s = exec i s := by
  have hopc : Memory.get s.mem s.pc = opcodeOf i := h 0 (by simp [encode])
  have hlen := operands_length_le_two i
  have hops : i.operands =
      [Memory.get s.mem (s.pc + 1), Memory.get s.mem (s.pc + 2)].take i.operands.length := by
    refine List.ext_getElem (by simpa using hlen) fun k hk _ => ?_
    have hbyte : Memory.get s.mem (s.pc + (k + 1)) = i.operands[k] := h (k + 1) (by simpa [encode] using hk)
    obtain rfl | rfl : k = 0 ∨ k = 1 := by omega
    all_goals simpa using hbyte.symm
  exact step_decoded hr hp (hopc ▸ decodeFetched_of_operands hops)

/-- Blank memory is no opcode (R72). -/
theorem decodeFetched_zero (a b : Byte) : decodeFetched 0 a b = .error (.illegalOpcode 0) := rfl

/-! ### The obligations on memory -/

/-- Settles O9: the laws of `Memory.put` inside the address space, the range check above it. -/
theorem memoryReadsTheLastWrite : Obligations.MemoryReadsTheLastWrite := by
  intro s addr v
  refine ⟨fun h => ?_, fun h => ⟨memWrite_above h, memRead_above h⟩⟩
  exact ⟨_, memWrite_ok h, memRead_put_same h, fun a => memRead_put_ne, rfl⟩

/-- Settles O10: a canonical memory is determined by what it reads as, and a write inside the address space keeps the
form. -/
theorem canonicalMemoriesAreEqual : Obligations.CanonicalMemoriesAreEqual := by
  refine ⟨fun m n => wfFrom_ext, fun s t addr v hs h => ?_⟩
  obtain ⟨ha, rfl⟩ := memWrite_cases h
  exact wf_put v ha hs

/-- Settles O54: the step runs the PUSH that was fetched, and the cell at the decremented `SP` holds the register as
read after the decrement. -/
theorem storeIsSeenByLaterFetchOnly : Obligations.StoreIsSeenByLaterFetchOnly := by
  intro r s hr hp h
  refine ⟨_, (step_of_holds hr hp h).trans (exec_push s r), rfl, hr, fun u hmem hpc hle => ?_⟩
  refine ⟨_, fetch_ok hle, ?_⟩
  have hcell : u.pc = s.decSp.sp.toNat := hpc.trans (toNat_sp_decSp s).symm
  calc Memory.get u.mem u.pc
      = Memory.get (Memory.put s.mem s.decSp.sp.toNat (s.decSp.getReg r)) s.decSp.sp.toNat := by rw [hmem, hcell]; rfl
    _ = s.decSp.getReg r := get_put_same _ _ _
    _ = if r = 7 then s.sp - 1 else s.getReg r := getReg_decSp s r

/-- Settles O42: 0x00 is no opcode where the fetch is in range, and above 253 the fetch faults first. -/
theorem zeroMemoryIsNoInstruction : Obligations.ZeroMemoryIsNoInstruction := by
  intro s hr h0
  by_cases hp : s.pc ≤ 253
  · rw [if_pos hp, step_illegal hr hp (h0 ▸ decodeFetched_zero _ _)]
    rfl
  · rw [if_neg hp, step_above hr (Nat.not_le.mp hp)]
    rfl

end Sys2Proof.Machine
end

section
/-! PROOFS. The encoding: the decoder and the encoder invert each other, the opcode's metadata bits, and what the cycle
does with the bytes at `pc` (`30_encoding.md`). -/

namespace Sys2Proof.Machine

variable {i : Instr} {s t : State} {ir a b : Byte} {bs tail rest : List Byte}

/-! ### The decoder on a byte list -/

/-- What decoding a nonempty list answers: the dispatcher's instruction for its first three bytes, when the list holds
the operand bytes the opcode asks for (R80). -/
theorem decode_cons_iff : decode (ir :: tail) = .ok (i, rest) ↔
    decodeFetched ir (tail.getD 0 0) (tail.getD 1 0) = .ok i ∧ operandCount ir ≤ tail.length ∧
      tail.drop (operandCount ir) = rest := by
  rw [decode]
  cases decodeFetched ir (tail.getD 0 0) (tail.getD 1 0) with
  | error e => simp
  | ok j =>
    by_cases hn : tail.length < operandCount ir
    · simp [hn]
    · simp [hn, Nat.not_lt.mp hn]

theorem decode_encode_append (i : Instr) (rest : List Byte) : decode (encode i ++ rest) = .ok (i, rest) :=
  decode_cons_iff.mpr
    ⟨decodeFetched_opcodeOf i rest, by simp [operandCount_opcodeOf], by simp [operandCount_opcodeOf]⟩

/-- The two operand bytes the decoder looks at are the head of the list, as far as the list goes. -/
theorem take_getD_pair {n : Nat} (h2 : n ≤ 2) (hlen : n ≤ tail.length) :
    [tail.getD 0 0, tail.getD 1 0].take n = tail.take n := by
  refine List.ext_getElem (by simp [h2, hlen]) fun k hk _ => ?_
  have hkn : k < n := hk.trans_le (List.length_take_le n _)
  obtain rfl | rfl : k = 0 ∨ k = 1 := by omega
  all_goals simp [List.getElem?_eq_getElem (hkn.trans_le hlen)]

theorem eq_encode_append_of_decode (h : decode bs = .ok (i, rest)) : bs = encode i ++ rest := by
  cases bs with
  | nil => cases h
  | cons ir tail =>
    obtain ⟨hd, hlen, rfl⟩ := decode_cons_iff.mp h
    obtain ⟨rfl, hops⟩ := decodeFetched_ok hd
    have htake : i.operands = tail.take (operandCount (opcodeOf i)) :=
      hops.trans (take_getD_pair (operandCount_opcodeOf i ▸ operands_length_le_two i) hlen)
    rw [encode, List.cons_append, htake, List.take_append_drop]

/-! ### The opcode byte -/

/-- The 13 opcode bytes of R90 are all there are. -/
theorem opcodeOf_mem (i : Instr) :
    opcodeOf i ∈ ([0x01, 0x82, 0x47, 0xA0, 0xA2, 0x45, 0x46, 0x50, 0x11, 0xA7, 0x54, 0x55, 0x56] : List Byte) := by
  cases i <;>
    simp [opcodeOf, Opc.hlt, Opc.ldi, Opc.prn, Opc.add, Opc.mul, Opc.push, Opc.pop, Opc.call, Opc.ret, Opc.cmp, Opc.jmp,
      Opc.jeq, Opc.jne]

/-- A byte that is no instruction's opcode selects nothing, whatever the operand bytes (R92, R93). -/
theorem decodeFetched_of_opcodeOf_ne (h : ∀ i, opcodeOf i ≠ ir) (a b : Byte) :
    decodeFetched ir a b = .error (.illegalOpcode ir) := by
  cases hd : decodeFetched ir a b with
  | error e => rw [decodeFetched_error hd]
  | ok i => exact absurd (decodeFetched_ok hd).1.symm (h i)

theorem length_operands_eq_div (i : Instr) : i.operands.length = (opcodeOf i).toNat / 64 := by
  rw [← operandCount_opcodeOf, operandCount_eq_div]

/-- Bit 4 as the parity of the byte above its low four bits. -/
theorem setsPc_eq_decide (ir : Byte) : setsPc ir = decide (ir.toNat / 16 % 2 = 1) := by
  simp [setsPc, BitVec.getLsbD, Nat.testBit_eq_decide_div_mod_eq]

/-- The advance of R100: an instruction that leaves `pc` to the cycle moves it past its own bytes. -/
theorem Completes.pc_eq_of_setsPc_false (h : Completes i s t) (hb : setsPc (opcodeOf i) = false) :
    t.pc = s.pc + operandCount (opcodeOf i) + 1 := by
  cases h with
  | call | ret | jmp | jeq | jne => simp [opcodeOf] at hb
  | hlt | ldi | prn | add | mul | push | pop | cmp => simp [opcodeOf]

/-! ### Register operand bytes -/

theorem wellFormed_eq_false_iff : i.wellFormed = false ↔ ∃ b ∈ i.regOperands, 7 < b.toNat := by
  rw [← Bool.not_eq_true, wellFormed_iff]
  simp

/-! ### A running step -/

theorem exists_step_of_run (hr : s.run = true) : ∃ t, step s = .next t := by
  rcases Nat.lt_or_ge 253 s.pc with hp | hp
  · exact ⟨_, step_above hr hp⟩
  · cases hd : decodeFetched (Memory.get s.mem s.pc) (Memory.get s.mem (s.pc + 1)) (Memory.get s.mem (s.pc + 2)) with
    | error e => exact ⟨_, step_illegal hr hp hd⟩
    | ok i => exact step_decoded hr hp hd ▸ exec_next s i

/-! ### The obligations on the decoder and the encoder -/

/-- Settles O4: the dispatcher gives `i` back from its opcode and operands, and the opcode's count is their number. -/
theorem decodeOfEncode : Obligations.DecodeOfEncode := decode_encode_append

/-- Settles O5: the opcode is the key that decoded, and the operands are the bytes taken. -/
theorem encodeOfDecode : Obligations.EncodeOfDecode := fun _ _ _ => eq_encode_append_of_decode

/-- Settles O3: what decodes is an encoding with bytes after it, so its length is the encoding's. -/
theorem instructionLayoutAndLength : Obligations.InstructionLayoutAndLength := by
  refine ⟨fun s hp => fetch_ok hp, fun i => ?_, fun bs rest i h => ?_⟩
  · exact ⟨_, _, rfl, rfl, length_operands_eq_div i, operands_length_le_two i⟩
  · have hlen := length_operands_eq_div i
    refine ⟨opcodeOf i, i.operands ++ rest, eq_encode_append_of_decode h, hlen ▸ operands_length_le_two i, ?_⟩
    rw [List.length_append, hlen]

/-- Settles O1, by evaluation of the decoder on the nine words. -/
theorem specBytesDecode : Obligations.SpecBytesDecode := by
  unfold Obligations.SpecBytesDecode
  decide

/-- Settles O2: a byte that decodes is the opcode of an instruction, so one of the 13. -/
theorem dispatchMatchesWholeOpcodeByte : Obligations.DispatchMatchesWholeOpcodeByte := fun a b =>
  ⟨rfl, rfl, rfl, rfl, rfl, rfl, rfl, rfl, rfl, rfl, rfl, rfl, rfl, fun _ h =>
    decodeFetched_of_opcodeOf_ne (fun i => ne_of_mem_of_not_mem (opcodeOf_mem i) h) a b⟩

/-! ### The obligations on the cycle -/

/-- Settles O26: a well-formed instruction completes, and with bit 4 clear the cycle advances it. -/
theorem cycleAdvancesUnlessBitFour : Obligations.CycleAdvancesUnlessBitFour := by
  intro i s hw hbit
  obtain ⟨t, ht⟩ := exists_completes hw s
  refine ⟨t, ht.exec_eq, ?_⟩
  rw [← operandCount_eq_div]
  exact ht.pc_eq_of_setsPc_false (by simp [setsPc_eq_decide, hbit])

/-- Settles O32: a byte above 7 makes the instruction ill formed, and a well-formed one leaves `FAULT` alone. -/
theorem registerOperandAboveSevenFaults : Obligations.RegisterOperandAboveSevenFaults := by
  refine ⟨fun b => ⟨fun h => ?_, fun ⟨r, _, h⟩ => ?_⟩, fun i s h => ?_, fun i s t h he => ?_⟩
  · obtain ⟨r, rfl⟩ := exists_regByte h
    exact ⟨r, rfl, toNat_regByte r⟩
  · exact h ▸ Nat.le_of_lt_succ r.isLt
  · exact exec_of_illFormed (wellFormed_eq_false_iff.mpr h) s 0
  · exact (exec_status (wellFormed_iff.mpr h) he).1

/-- Settles O35: a byte outside the 13 is no instruction's opcode. -/
theorem illegalOpcodeFaults : Obligations.IllegalOpcodeFaults := fun _ hr hp h =>
  step_illegal hr hp (decodeFetched_of_opcodeOf_ne (fun i => ne_of_mem_of_not_mem (opcodeOf_mem i) h) _ _)

/-- Settles O37: each of the three outcomes of the fetch and the dispatch is a next state. -/
theorem stepsExactlyWhileRunning : Obligations.StepsExactlyWhileRunning := fun _ =>
  ⟨exists_step_of_run, step_stopped⟩

/-- Settles O39: the dispatcher answers an instruction or refuses the opcode. -/
theorem stepRunsTheDecodedInstruction : Obligations.StepRunsTheDecodedInstruction := by
  refine fun s i hr hp => ⟨step_decoded hr hp, fun hno => ?_⟩
  cases hd : decodeFetched (Memory.get s.mem s.pc) (Memory.get s.mem (s.pc + 1)) (Memory.get s.mem (s.pc + 2)) with
  | error e => exact step_illegal hr hp hd
  | ok j => exact absurd hd (hno j)

/-- Settles O40: the bytes fetched begin with the encoding, so they decode to the instruction. -/
theorem encodedInstructionIsExecuted : Obligations.EncodedInstructionIsExecuted := fun _ _ => step_of_holds

end Sys2Proof.Machine
end

section
/-! PROOFS. HLT, LDI and PRN, and the frames of the instructions that leave memory alone (`40_halt_load_print.md`).

A frame holds on any operand bytes because an instruction either completes, in one of the ways of `Completes`, or takes
the register fault, which writes `RUN` and `FAULT` alone (D3, D8). -/

namespace Sys2Proof.Machine

variable {i : Instr} {s t : State}

/-! ### What an instruction writes, on any operand bytes -/

/-- An instruction completes, or it is ill formed and takes the fault of R234. -/
theorem exec_faults_or_completes (h : exec i s = .next t) :
    (i.wellFormed = false ∧ t = raise (.registerIndexOutOfRange 0) s) ∨ Completes i s t :=
  (exec_cases h).symm.imp_right fun hw => completes_of_exec hw h

/-- `i` may write `x[r]`: its destination register, or `SP` where it moves the stack pointer (R23). -/
def WritesReg : Instr → RegIdx → Prop
  | .ldi a _, r | .add a _, r | .mul a _, r => regByte r = a
  | .push _, r | .call _, r | .ret, r => r = 7
  | .pop a, r => regByte r = a ∨ r = 7
  | .hlt, _ | .prn _, _ | .cmp _ _, _ | .jmp _, _ | .jeq _, _ | .jne _, _ => False

theorem Completes.getReg_eq (h : Completes i s t) {r : RegIdx} (hr : ¬ WritesReg i r) : t.getReg r = s.getReg r := by
  cases h with
  | ldi | add | mul => exact getReg_setReg_ne fun e => hr (congrArg regByte e)
  | push | call | ret => exact getReg_setReg_ne hr
  | pop =>
    obtain ⟨hdest, hsp⟩ := not_or.mp hr
    exact (getReg_incSp_ne hsp).trans (getReg_setReg_ne fun e => hdest (congrArg regByte e))
  | hlt | prn | cmp | jmp | jeq | jne => rfl

theorem exec_getReg_eq (h : exec i s = .next t) {r : RegIdx} (hr : ¬ WritesReg i r) : t.getReg r = s.getReg r := by
  obtain ⟨-, rfl⟩ | hc := exec_faults_or_completes h
  · rfl
  · exact hc.getReg_eq hr

theorem exec_fl_eq (h : exec i s = .next t) (hi : ∀ a b, i ≠ .cmp a b) : t.fl = s.fl := by
  obtain ⟨-, rfl⟩ | hc := exec_faults_or_completes h
  · rfl
  · exact hc.fl_eq hi

theorem Completes.out_eq (h : Completes i s t) (hi : ∀ a, i ≠ .prn a) : t.out = s.out := by
  cases h with
  | prn r => exact absurd rfl (hi _)
  | _ => rfl

theorem exec_out_eq (h : exec i s = .next t) (hi : ∀ a, i ≠ .prn a) : t.out = s.out := by
  obtain ⟨-, rfl⟩ | hc := exec_faults_or_completes h
  · rfl
  · exact hc.out_eq hi

/-! ### Instructions that do not reach memory -/

/-- The four instructions that reach memory beyond the fetch, all of them at `SP` or just below it (R54). -/
def usesStack : Instr → Bool
  | .push _ | .pop _ | .call _ | .ret => true
  | .hlt | .ldi _ _ | .prn _ | .add _ _ | .mul _ _ | .cmp _ _ | .jmp _ | .jeq _ | .jne _ => false

theorem Completes.setMem (h : Completes i s t) (hi : usesStack i = false) (m : Memory) :
    Completes i (s.setMem m) (t.setMem m) := by
  cases h with
  | push | pop | call | ret => cases hi
  | _ => constructor

/-- Memory is neither read nor written: beside any other memory the instruction does the same and carries it along. -/
theorem exec_setMem (h : exec i s = .next t) (hi : usesStack i = false) (m : Memory) :
    exec i (s.setMem m) = .next (t.setMem m) := by
  obtain ⟨hw, rfl⟩ | hc := exec_faults_or_completes h
  · exact exec_of_illFormed hw (s.setMem m) 0
  · exact (hc.setMem hi m).exec_eq

/-- Carried along beside any memory, so beside the state's own. -/
theorem exec_mem_eq (h : exec i s = .next t) (hi : usesStack i = false) : t.mem = s.mem := by
  have e : t = t.setMem s.mem := Host.Outcome.next.inj (h.symm.trans (exec_setMem h hi s.mem))
  rw [e, setMem_mem]

/-! ### The obligations on frames -/

/-- Settles O27: only the destination register is among the registers written, and none of the three is CMP, PRN, HLT or
an instruction of the stack. -/
theorem frameOfLdiAddMul : Obligations.FrameOfLdiAddMul := by
  intro a b i s t hi h
  obtain ⟨hreg, hstack, hcmp, hprn, hhlt⟩ : (∀ r, regByte r ≠ a → ¬ WritesReg i r) ∧
      usesStack i = false ∧ (∀ c d, i ≠ .cmp c d) ∧ (∀ c, i ≠ .prn c) ∧ i ≠ .hlt := by
    obtain rfl | rfl | rfl := hi <;> exact ⟨fun _ => id, rfl, nofun, nofun, nofun⟩
  refine ⟨fun r hr => exec_getReg_eq h (hreg r hr), exec_fl_eq h hcmp, exec_out_eq h hprn,
    fun addr => by rw [exec_mem_eq h hstack], fun hw => ?_⟩
  obtain ⟨hfault, hrun, -, -⟩ := exec_status hw h
  exact ⟨hrun hhlt, hfault⟩

/-- Settles O28: the six write no register and do not reach memory, and CMP, PRN and HLT are the only writers of `FL`,
`OUT` and `RUN`. -/
theorem frameOfHltPrnCmpAndJumps : Obligations.FrameOfHltPrnCmpAndJumps := by
  intro a b i s t hi h
  obtain ⟨hreg, hstack⟩ : (∀ r, ¬ WritesReg i r) ∧ usesStack i = false := by
    obtain rfl | rfl | rfl | rfl | rfl | rfl := hi <;> exact ⟨fun _ => id, rfl⟩
  have hcmp : i ≠ .cmp a b → ∀ c d, i ≠ .cmp c d := by
    rintro hne c d rfl
    exact hne (by simpa using hi)
  have hprn : i ≠ .prn a → ∀ c, i ≠ .prn c := by
    rintro hne c rfl
    exact hne (by simpa using hi)
  refine ⟨fun r => exec_getReg_eq h (hreg r), fun addr => by rw [exec_mem_eq h hstack],
    fun hne => exec_fl_eq h (hcmp hne), fun hne => exec_out_eq h (hprn hne), fun hw => ?_⟩
  obtain ⟨hfault, hrun, -, -⟩ := exec_status hw h
  exact ⟨hrun, hfault⟩

/-- Settles O31: the three do not reach memory, and bit 4 clear leaves `pc` to the cycle. -/
theorem hltLdiPrnTouchNoMemoryAndNoFlags : Obligations.HltLdiPrnTouchNoMemoryAndNoFlags := by
  intro a b i s t hi h
  have hstack : usesStack i = false := by obtain rfl | rfl | rfl := hi <;> rfl
  have hcmp : ∀ c d, i ≠ .cmp c d := by obtain rfl | rfl | rfl := hi <;> nofun
  have hbit : setsPc (opcodeOf i) = false := by
    obtain rfl | rfl | rfl := hi
    exacts [setsPc_hlt, setsPc_ldi, setsPc_prn]
  exact ⟨exec_mem_eq h hstack, exec_fl_eq h hcmp, exec_setMem h hstack, hbit, fun hw =>
    (completes_of_exec hw h).pc_eq_of_setsPc_false hbit⟩

/-! ### The obligations on each instruction -/

/-- Settles O12, by the next state of HLT. -/
theorem hltStopsCleanly : Obligations.HltStopsCleanly := fun s =>
  ⟨_, exec_hlt s, rfl, rfl, rfl, rfl, fun _ => rfl, rfl, rfl⟩

/-- Settles O13, by the next state of LDI and the laws of a register write. -/
theorem ldiLoadsImmediate : Obligations.LdiLoadsImmediate := fun r v s =>
  ⟨_, exec_ldi s r v, getReg_setReg_same s r v, fun _ => getReg_setReg_ne, rfl, rfl, rfl, rfl, rfl, rfl⟩

/-- Settles O14, by the next state of PRN. -/
theorem prnEmitsRegister : Obligations.PrnEmitsRegister := fun r s =>
  ⟨_, exec_prn s r, rfl, rfl, fun _ => rfl, rfl, rfl, rfl, rfl⟩

end Sys2Proof.Machine
end

section
/-! PROOFS. The ALU: ADD and MUL on the two old values, and why its own fault is never raised (`41_alu.md`). -/

namespace Sys2Proof.Machine

variable {s t : State}

/-! ### The destination register of ADD and MUL -/

theorem toNat_getReg_setReg_add (s : State) (r q : RegIdx) :
    ((s.setReg r (s.getReg r + s.getReg q)).getReg r).toNat = ((s.getReg r).toNat + (s.getReg q).toNat) % 256 := by
  rw [getReg_setReg_same, BitVec.toNat_add]

theorem toNat_getReg_setReg_mul (s : State) (r q : RegIdx) :
    ((s.setReg r (s.getReg r * s.getReg q)).getReg r).toNat = ((s.getReg r).toNat * (s.getReg q).toNat) % 256 := by
  rw [getReg_setReg_same, BitVec.toNat_mul]

/-! ### The codes a step can raise -/

/-- A step keeps `FAULT` or takes one of three faults: of the four codes, only that of the ALU is not among them. -/
theorem step_fault_cases (h : step s = .next t) : t.fault = s.fault ∨ t.fault = 1 ∨ t.fault = 3 ∨ t.fault = 4 := by
  obtain ⟨-, ⟨-, rfl⟩ | ⟨-, -, rfl⟩ | ⟨-, i, -, hi⟩⟩ := step_cases h
  · exact .inr (.inr (.inl rfl))
  · exact .inr (.inl rfl)
  · obtain ⟨-, rfl⟩ | hc := exec_faults_or_completes hi
    · exact .inr (.inr (.inr rfl))
    · exact .inl hc.fault_eq

theorem step_fault_ne_two (h : step s = .next t) (hs : s.fault ≠ 2) : t.fault ≠ 2 := by
  obtain e | e | e | e := step_fault_cases h <;> rw [e]
  · exact hs
  all_goals decide

theorem Reachable.fault_ne_two (h : Reachable s) : s.fault ≠ 2 := by
  induction h with
  | launch l s hl =>
    obtain ⟨-, rfl⟩ := launch_cases hl
    simp
  | step s t _ hst ih => exact step_fault_ne_two hst ih

/-! ### The obligations on the ALU -/

/-- Settles O36: the ALU faults on the operators it lacks, but a step raises other codes only, and a launch none. -/
theorem unsupportedAluOpIsNeverRaised : Obligations.UnsupportedAluOpIsNeverRaised :=
  ⟨fun _ _ _ _ => ⟨rfl, rfl⟩, fun _ _ => step_fault_ne_two, fun _ => Reachable.fault_ne_two⟩

/-- Settles O11: the ALU's answer is one register write, whose value is taken from the state before it. -/
theorem aluReadsBothThenWritesFirst : Obligations.AluReadsBothThenWritesFirst := fun s ra rb =>
  ⟨⟨_, alu_add s ra rb, toNat_getReg_setReg_add s ra rb, fun _ => getReg_setReg_ne, rfl⟩,
    ⟨_, alu_mul s ra rb, toNat_getReg_setReg_mul s ra rb, fun _ => getReg_setReg_ne, rfl⟩,
    fun _ => rfl⟩

/-- Settles O15, by the next state of ADD and the laws of a register write. -/
theorem addWrapsModulo256 : Obligations.AddWrapsModulo256 := fun ra rb s =>
  ⟨_, exec_add s ra rb, toNat_getReg_setReg_add s ra rb, fun _ => getReg_setReg_ne, rfl, rfl, rfl, rfl, rfl, rfl⟩

/-- Settles O16, by the next state of MUL and the laws of a register write. -/
theorem mulWrapsModulo256 : Obligations.MulWrapsModulo256 := fun ra rb s =>
  ⟨_, exec_mul s ra rb, toNat_getReg_setReg_mul s ra rb, fun _ => getReg_setReg_ne, rfl, rfl, rfl, rfl, rfl, rfl⟩

end Sys2Proof.Machine
end

section
/-! PROOFS. The stack: what PUSH and POP do, the frames of the four instructions that use the stack, and a POP right
after a PUSH (`42_stack.md`). -/

namespace Sys2Proof.Machine

variable {i : Instr} {s t : State}

/-! ### The stack pointer and register writes -/

/-- The incremented stack pointer as an address. -/
theorem toNat_sp_incSp (s : State) : s.incSp.sp.toNat = (s.sp.toNat + 1) % 256 := by
  rw [sp_incSp, BitVec.toNat_add]
  rfl

/-- Writing back what a register holds changes nothing. -/
@[simp] theorem setReg_getReg_self (s : State) (r : RegIdx) : s.setReg r (s.getReg r) = s := by
  simp [State.setReg, State.getReg]

/-- The later of two writes to one register stands. -/
@[simp] theorem setReg_setReg_same (s : State) (r : RegIdx) (v w : Byte) :
    (s.setReg r v).setReg r w = s.setReg r w := by
  simp [State.setReg]

/-- The increment undoes the decrement, at the wrap too (D4). -/
@[simp] theorem incSp_decSp (s : State) : s.decSp.incSp = s := by
  rw [State.incSp, sp_decSp, BitVec.sub_add_cancel, State.decSp, setReg_setReg_same]
  exact setReg_getReg_self s Config.spIndex

/-! ### The state after a PUSH -/

/-- The state PUSH leaves (R162); `exec_push` says so. -/
def State.afterPush (r : RegIdx) (s : State) : State :=
  (s.decSp.setMem (Memory.put s.mem s.decSp.sp.toNat (s.decSp.getReg r))).setPc (s.pc + 2)

theorem exec_push_eq_afterPush (r : RegIdx) (s : State) : exec (.push (regByte r)) s = .next (s.afterPush r) :=
  exec_push s r

theorem sp_afterPush (r : RegIdx) (s : State) : (s.afterPush r).sp = s.sp - 1 := sp_decSp s

/-- The byte pushed is the register's, read after the decrement, which shows for R7 (D11). -/
theorem get_afterPush_same (r : RegIdx) (s : State) :
    Memory.get (s.afterPush r).mem ((s.sp.toNat + 255) % 256) = if r = 7 then s.sp - 1 else s.getReg r := by
  rw [← toNat_sp_decSp, ← getReg_decSp]
  exact get_put_same _ _ _

theorem get_afterPush_ne (r : RegIdx) {s : State} {a : Nat} (h : a ≠ (s.sp.toNat + 255) % 256) :
    Memory.get (s.afterPush r).mem a = Memory.get s.mem a :=
  get_put_ne (toNat_sp_decSp s ▸ h)

/-- A POP of the same register undoes a PUSH but for the byte stored: it loads what the register holds already, and
the increment undoes the decrement (R170). -/
theorem exec_pop_afterPush (r : RegIdx) (s : State) :
    exec (.pop (regByte r)) (s.afterPush r) = .next ((s.setMem (s.afterPush r).mem).setPc (s.pc + 4)) := by
  have hload : Memory.get (s.afterPush r).mem (s.afterPush r).sp.toNat = (s.afterPush r).getReg r :=
    get_put_same _ _ _
  have hinc : (s.afterPush r).incSp = (s.decSp.incSp.setMem (s.afterPush r).mem).setPc (s.pc + 2) := rfl
  rw [exec_pop, hload, setReg_getReg_self, hinc, incSp_decSp]
  rfl

/-! ### Code that lies in memory -/

theorem State.Holds.append_right {addr : Nat} {xs ys : List Byte} (h : s.Holds addr (xs ++ ys)) :
    s.Holds (addr + xs.length) ys := fun k hk => by
  have hbyte := h (xs.length + k) (by simpa using hk)
  simpa [Nat.add_assoc] using hbyte

theorem State.Holds.append_left {addr : Nat} {xs ys : List Byte} (h : s.Holds addr (xs ++ ys)) :
    s.Holds addr xs := fun k hk => by
  have hbyte := h k (by simp; omega)
  simpa [List.getElem_append_left hk] using hbyte

/-- Code stays where it lies in a memory that reads the same there. -/
theorem State.Holds.congr {addr : Nat} {bytes : List Byte} (h : s.Holds addr bytes)
    (hmem : ∀ k < bytes.length, Memory.get t.mem (addr + k) = Memory.get s.mem (addr + k)) : t.Holds addr bytes :=
  fun k hk => (hmem k hk).trans (h k hk)

/-! ### Frames on any operand byte -/

/-- Memory is written by PUSH and CALL alone, a fault included (R54). -/
theorem exec_mem_cases (h : exec i s = .next t) :
    t.mem = s.mem ∨
      (opcodeOf i = 0x45 ∨ opcodeOf i = 0x50) ∧ ∃ v, t.mem = Memory.put s.mem s.decSp.sp.toNat v := by
  obtain ⟨-, rfl⟩ | hc := exec_faults_or_completes h
  · exact .inl rfl
  · exact hc.mem_cases

/-- No byte but the one at the decremented stack pointer changes by any instruction. -/
theorem exec_get_mem_ne (h : exec i s = .next t) {a : Nat} (ha : a ≠ s.decSp.sp.toNat) :
    Memory.get t.mem a = Memory.get s.mem a := by
  obtain e | ⟨-, v, e⟩ := exec_mem_cases h
  · rw [e]
  · rw [e, get_put_ne ha]

/-- The instructions of the stack write neither `FL` nor `OUT`, and `RUN` and `FAULT` by the register fault alone. -/
theorem exec_frame_of_usesStack (hi : usesStack i = true) (h : exec i s = .next t) :
    t.fl = s.fl ∧ t.out = s.out ∧ (i.wellFormed = true → t.run = s.run ∧ t.fault = s.fault) := by
  have hcmp : ∀ a b, i ≠ .cmp a b := by rintro a b rfl; cases hi
  have hprn : ∀ a, i ≠ .prn a := by rintro a rfl; cases hi
  have hhlt : i ≠ .hlt := by rintro rfl; cases hi
  refine ⟨exec_fl_eq h hcmp, exec_out_eq h hprn, fun hw => ?_⟩
  obtain ⟨hfault, hrun, -, -⟩ := exec_status hw h
  exact ⟨hrun hhlt, hfault⟩

/-! ### The obligations on the stack -/

/-- Settles O29: POP and RET are not among the two that store, and the registers excepted are those they write. -/
theorem frameOfPopRet : Obligations.FrameOfPopRet := by
  intro a i s t hi h
  obtain ⟨hreg, hstack, hstore⟩ : (∀ r, (i = .pop a → regByte r ≠ a) → r ≠ 7 → ¬ WritesReg i r) ∧
      usesStack i = true ∧ ¬ (opcodeOf i = 0x45 ∨ opcodeOf i = 0x50) := by
    obtain rfl | rfl := hi
    · exact ⟨fun r hdest hsp => not_or.mpr ⟨hdest rfl, hsp⟩, rfl, by simp [opcodeOf, Opc.pop]⟩
    · exact ⟨fun r _ hsp => hsp, rfl, by simp [opcodeOf, Opc.ret]⟩
  have hmem : t.mem = s.mem := (exec_mem_cases h).resolve_right fun hput => hstore hput.1
  exact ⟨fun r hdest hsp => exec_getReg_eq h (hreg r hdest hsp), fun addr => by rw [hmem],
    exec_frame_of_usesStack hstack h⟩

/-- Settles O30: of the registers both write `SP` alone, and the one store is at the decremented `SP`. -/
theorem frameOfPushCall : Obligations.FrameOfPushCall := by
  intro a i s t hi h
  obtain ⟨hreg, hstack⟩ : (∀ r, r ≠ 7 → ¬ WritesReg i r) ∧ usesStack i = true := by
    obtain rfl | rfl := hi <;> exact ⟨fun _ => id, rfl⟩
  refine ⟨fun r hr => exec_getReg_eq h (hreg r hr), ?_, exec_frame_of_usesStack hstack h⟩
  rintro _ rfl other hne
  exact exec_get_mem_ne h hne

/-- Settles O52: the first step leaves the POP in place, and the second undoes the PUSH but for the byte stored. -/
theorem pushThenPopRestores : Obligations.PushThenPopRestores := by
  intro r s hr hp h hne2 hne3
  have hpush : step s = .next (s.afterPush r) :=
    (step_of_holds hr (by omega) h.append_left).trans (exec_push_eq_afterPush r s)
  have hcode : (s.afterPush r).Holds (s.pc + 2) (encode (.pop (regByte r))) := by
    refine h.append_right.congr fun k hk => get_afterPush_ne r ?_
    have hk2 : k < 2 := hk
    show s.pc + 2 + k ≠ _
    omega
  have hpop := (step_of_holds (s := s.afterPush r) hr (show s.pc + 2 ≤ 253 by omega) hcode).trans
    (exec_pop_afterPush r s)
  exact ⟨_, _, hpush, hpop, rfl, fun _ => rfl, get_afterPush_same r s, fun _ => get_afterPush_ne r,
    rfl, hr, rfl, rfl⟩

/-- Settles O17, by the state after a PUSH. -/
theorem pushStoresBelowStackPointer : Obligations.PushStoresBelowStackPointer := fun r s =>
  ⟨_, exec_push_eq_afterPush r s, toNat_sp_decSp s, sp_afterPush r s ▸ get_afterPush_same r s,
    fun _ => get_afterPush_ne r, fun _ => getReg_decSp_ne, rfl, rfl, rfl, rfl, rfl⟩

/-- Settles O18: the increment comes after the load, so it applies to the byte loaded where the register is R7. -/
theorem popLoadsAtStackPointer : Obligations.PopLoadsAtStackPointer := by
  intro r s
  refine ⟨_, exec_pop s r, fun hr => ⟨?_, ?_⟩, ?_, fun q hq hsp => ?_, rfl, rfl, rfl, rfl, rfl, rfl⟩
  · exact (getReg_incSp_ne hr).trans (getReg_setReg_same s r _)
  · rw [sp_setPc, toNat_sp_incSp, sp_setReg, if_neg hr]
  · intro hr
    rw [sp_setPc, toNat_sp_incSp, sp_setReg, if_pos hr]
  · exact (getReg_incSp_ne hsp).trans (getReg_setReg_ne hq)

end Sys2Proof.Machine
end

section
/-! PROOFS. Subroutines: what CALL stores and where it goes, and the RET that comes back (`43_subroutine.md`). -/

namespace Sys2Proof.Machine

/-! ### The state after a CALL -/

/-- The state CALL leaves (R182); `exec_call_eq_afterCall` says so. -/
def State.afterCall (r : RegIdx) (s : State) : State :=
  (s.decSp.setMem (Memory.put s.mem s.decSp.sp.toNat (BitVec.ofNat 8 (s.pc + 2)))).setPc (s.decSp.getReg r).toNat

theorem exec_call_eq_afterCall (r : RegIdx) (s : State) : exec (.call (regByte r)) s = .next (s.afterCall r) :=
  exec_call s r

theorem sp_afterCall (r : RegIdx) (s : State) : (s.afterCall r).sp = s.sp - 1 := sp_decSp s

theorem toNat_sp_afterCall (r : RegIdx) (s : State) : (s.afterCall r).sp.toNat = (s.sp.toNat + 255) % 256 :=
  toNat_sp_decSp s

/-- The cell the stack pointer now names holds the return address, which fits a byte wherever a step executes (R96). -/
theorem toNat_get_afterCall_sp (r : RegIdx) {s : State} (hp : s.pc ≤ 253) :
    (Memory.get (s.afterCall r).mem (s.afterCall r).sp.toNat).toNat = s.pc + 2 :=
  calc (Memory.get (s.afterCall r).mem (s.afterCall r).sp.toNat).toNat
      = (BitVec.ofNat 8 (s.pc + 2)).toNat := congrArg BitVec.toNat (get_put_same _ _ _)
    _ = s.pc + 2 := by rw [BitVec.toNat_ofNat]; omega

theorem get_afterCall_ne (r : RegIdx) {s : State} {a : Nat} (h : a ≠ (s.sp.toNat + 255) % 256) :
    Memory.get (s.afterCall r).mem a = Memory.get s.mem a :=
  get_put_ne (toNat_sp_decSp s ▸ h)

/-- The target is read after the decrement, which shows for R7 (D11). -/
theorem pc_afterCall (r : RegIdx) (s : State) :
    (s.afterCall r).pc = if r = 7 then (s.afterCall r).sp.toNat else (s.getReg r).toNat := by
  have htarget : (s.afterCall r).pc = (s.decSp.getReg r).toNat := rfl
  rw [htarget, getReg_decSp, sp_afterCall]
  split <;> rfl

/-! ### The obligations on subroutines -/

/-- Settles O53: the RET reads the cell the CALL wrote, and its increment undoes the CALL's decrement. -/
theorem callThenRetReturns : Obligations.CallThenRetReturns := by
  intro r s hr hp hcall
  refine ⟨_, (step_of_holds hr hp hcall).trans (exec_call_eq_afterCall r s), fun u hur hup hret hsp hcell => ?_⟩
  refine ⟨_, (step_of_holds hur hup hret).trans (exec_ret u), ?_, ?_⟩
  · calc (Memory.get u.mem u.sp.toNat).toNat
        = (Memory.get (s.afterCall r).mem (s.afterCall r).sp.toNat).toNat := by rw [hsp, hcell]
      _ = s.pc + 2 := toNat_get_afterCall_sp r hp
  · calc u.incSp.sp
        = s.sp - 1 + 1 := by rw [sp_incSp, hsp, sp_afterCall]
      _ = s.sp := BitVec.sub_add_cancel _ _

/-- Settles O19, by the state after a CALL. -/
theorem callStoresReturnAddressAndJumps : Obligations.CallStoresReturnAddressAndJumps := fun r s hp =>
  ⟨_, exec_call_eq_afterCall r s, toNat_sp_afterCall r s, toNat_sp_afterCall r s ▸ toNat_get_afterCall_sp r hp,
    fun _ => get_afterCall_ne r, pc_afterCall r s, fun _ => getReg_decSp_ne, rfl, rfl, rfl, rfl⟩

/-- Settles O20, by the next state of RET: the byte is read at the old `SP`, before the increment. -/
theorem retJumpsToStackedByte : Obligations.RetJumpsToStackedByte := fun s =>
  ⟨_, exec_ret s, rfl, toNat_sp_incSp s, fun _ => getReg_incSp_ne, rfl, rfl, rfl, rfl, rfl⟩

end Sys2Proof.Machine
end

section
/-! PROOFS. CMP: which flag the byte it assigns sets, and that it writes nothing else but `pc` (`44_compare.md`). -/

namespace Sys2Proof.Machine

/-! ### The flags a comparison sets -/

/-- Each flag of the byte CMP assigns stands for one of the three orders, and bits 7:3 are 0 (R202, D7). -/
theorem compareFlags_spec (va vb : Byte) :
    (flagE (compareFlags va vb) = true ↔ va.toNat = vb.toNat) ∧
      (flagG (compareFlags va vb) = true ↔ va.toNat > vb.toNat) ∧
      (flagL (compareFlags va vb) = true ↔ va.toNat < vb.toNat) ∧ (compareFlags va vb).toNat < 8 := by
  obtain ⟨horder, e⟩ | ⟨horder, e⟩ | ⟨horder, e⟩ := compareFlags_cases va vb <;>
    simp [e, flagE, flagG, flagL] <;> omega

/-! ### The obligation on CMP -/

/-- Settles O21, by the next state of CMP and the flags of the byte it assigns. -/
theorem cmpSetsExactlyOneFlag : Obligations.CmpSetsExactlyOneFlag := by
  intro ra rb s
  obtain ⟨hE, hG, hL, hupper⟩ := compareFlags_spec (s.getReg ra) (s.getReg rb)
  exact ⟨_, exec_cmp s ra rb, hE, hG, hL, hupper, rfl, fun _ => rfl, rfl, rfl, rfl, rfl⟩

end Sys2Proof.Machine
end

section
/-! PROOFS. Jumps: where JMP, JEQ and JNE go, and that they write nothing but `pc` (`45_jumps.md`). -/

namespace Sys2Proof.Machine

/-! ### The two conditional jumps from one state -/

/-- One of the two conditional jumps goes to the register's value and the other past its two bytes (R218). -/
theorem exec_jeq_jne_cases (r : RegIdx) (s : State) :
    (exec (.jeq (regByte r)) s = .next (s.setPc (s.getReg r).toNat) ∧
      exec (.jne (regByte r)) s = .next (s.setPc (s.pc + 2))) ∨
    (exec (.jeq (regByte r)) s = .next (s.setPc (s.pc + 2)) ∧
      exec (.jne (regByte r)) s = .next (s.setPc (s.getReg r).toNat)) := by
  rw [exec_jeq, exec_jne]
  cases flagE s.fl with
  | true => exact .inl ⟨rfl, rfl⟩
  | false => exact .inr ⟨rfl, rfl⟩

/-! ### The obligations on jumps -/

/-- Settles O25: on either value of the flag the two next states are `s` with another `pc`. -/
theorem jeqAndJneAreComplementary : Obligations.JeqAndJneAreComplementary := by
  intro r s
  obtain ⟨hjeq, hjne⟩ | ⟨hjeq, hjne⟩ := exec_jeq_jne_cases r s
  · exact ⟨_, _, hjeq, hjne, .inl ⟨rfl, rfl⟩, rfl⟩
  · exact ⟨_, _, hjeq, hjne, .inr ⟨rfl, rfl⟩, rfl⟩

/-- Settles O22, by the next state of JMP. -/
theorem jmpJumpsToRegister : Obligations.JmpJumpsToRegister := fun r s => exec_jmp s r

/-- Settles O23, by the next state of JEQ and the digit its flag is. -/
theorem jeqJumpsIffEqual : Obligations.JeqJumpsIffEqual := by
  intro r s
  simp only [exec_jeq, flagE_eq_decide, decide_eq_true_eq, State.setPc]

/-- Settles O24: the branches of JNE's next state change places, as the digit is 0 where it is not 1. -/
theorem jneJumpsIffNotEqual : Obligations.JneJumpsIffNotEqual := by
  intro r s
  simp only [exec_jne, flagE_eq_decide, decide_eq_true_eq, ← Nat.mod_two_ne_one, ite_not, State.setPc]

end Sys2Proof.Machine
end

section
/-! PROOFS. Exceptions: which fault a step takes, that it writes `RUN` and `FAULT` alone, and that no step follows it
(`60_exceptions.md`). -/

namespace Sys2Proof.Machine

variable {i : Instr} {s t : State} {ir a b : Byte}

/-! ### The code that the three fetched bytes determine -/

/-- The tests of R244 that follow the fetch, on the opcode byte and the two bytes after it. Tied to the dispatcher by
`dispatchFault_of_error` and `dispatchFault_of_ok`, to the step by `step_fault_eq`. -/
def dispatchFault (ir a b : Byte) : BitVec 3 :=
  if ir ∈ ([0x01, 0x11] : List Byte) then 0
  else if ir ∈ ([0x82, 0x47, 0x45, 0x46, 0x50, 0x54, 0x55, 0x56] : List Byte) then if a.toNat > 7 then 4 else 0
  else if ir ∈ ([0xA0, 0xA2, 0xA7] : List Byte) then if a.toNat > 7 ∨ b.toNat > 7 then 4 else 0
  else 1

/-- The opcode map has a row for each of the 13 bytes of R90, so the dispatcher refuses none of them. -/
theorem not_mem_of_decodeFetched_error {e : DecodeError} (h : decodeFetched ir a b = .error e) :
    ir ∉ ([0x01, 0x82, 0x47, 0xA0, 0xA2, 0x45, 0x46, 0x50, 0x11, 0xA7, 0x54, 0x55, 0x56] : List Byte) := by
  unfold decodeFetched at h
  split at h
  · cases h
  · rename_i hnone
    intro hmem
    obtain ⟨row, hrow, rfl⟩ : ∃ row ∈ opcodeMap a b, row.1 = ir := List.mem_map.mp hmem
    simpa using List.find?_eq_none.mp hnone row hrow

theorem dispatchFault_of_error {e : DecodeError} (h : decodeFetched ir a b = .error e) : dispatchFault ir a b = 1 := by
  have notIn := fun (l : List Byte) hl (hir : ir ∈ l) => not_mem_of_decodeFetched_error h (List.subset_def.mp hl hir)
  rw [dispatchFault, if_neg (notIn _ (by decide)), if_neg (notIn _ (by decide)), if_neg (notIn _ (by decide))]

/-- In each row of the opcode map the bytes tested are the instruction's register operands. -/
theorem dispatchFault_opcodeMap_row : ∀ row ∈ opcodeMap a b,
    dispatchFault row.1 a b = if ∃ c ∈ row.2.regOperands, 7 < c.toNat then 4 else 0 := by
  simp [opcodeMap, dispatchFault, Instr.regOperands, Opc.hlt, Opc.ldi, Opc.prn, Opc.add, Opc.mul, Opc.push, Opc.pop,
    Opc.call, Opc.ret, Opc.cmp, Opc.jmp, Opc.jeq, Opc.jne]

theorem dispatchFault_of_ok (h : decodeFetched ir a b = .ok i) :
    dispatchFault ir a b = if ∃ c ∈ i.regOperands, 7 < c.toNat then 4 else 0 :=
  dispatchFault_opcodeMap_row _ (decodeFetched_mem h)

/-! ### The fault of a step -/

theorem exec_fault_eq (h : exec i s = .next t) :
    t.fault = if ∃ c ∈ i.regOperands, 7 < c.toNat then 4 else s.fault := by
  obtain ⟨hw, rfl⟩ | hc := exec_faults_or_completes h
  · exact (if_pos (wellFormed_eq_false_iff.mp hw)).symm
  · rw [if_neg (by simp [← wellFormed_eq_false_iff, hc.wellFormed]), hc.fault_eq]

/-- The fetch range is tested first, then the bytes fetched (R244). -/
theorem step_fault_eq (h : step s = .next t) (hs : s.fault = 0) :
    t.fault = if s.pc > 253 then 3
      else dispatchFault (Memory.get s.mem s.pc) (Memory.get s.mem (s.pc + 1)) (Memory.get s.mem (s.pc + 2)) := by
  obtain ⟨-, ⟨hp, rfl⟩ | ⟨hp, hd, rfl⟩ | ⟨hp, i, hd, hi⟩⟩ := step_cases h
  · rw [if_pos hp]
    rfl
  · rw [if_neg (Nat.not_lt.mpr hp), dispatchFault_of_error hd]
    rfl
  · rw [if_neg (Nat.not_lt.mpr hp), dispatchFault_of_ok hd, exec_fault_eq hi, hs]

/-- A step that turns `FAULT` nonzero has raised its cause: an instruction that completes keeps `FAULT`. -/
theorem eq_raise_of_step_fault (h : step s = .next t) (hs : s.fault = 0) (ht : t.fault ≠ 0) : ∃ c, t = raise c s := by
  obtain ⟨c, hc, -⟩ | ⟨-, i, -, hi, -⟩ := step_faults_or_completes h
  · exact ⟨c, hc⟩
  · exact absurd (hi.fault_eq.trans hs) ht

/-- A run ends where its first step faults, whatever the number of steps asked for. -/
theorem run_succ_of_step_fault {M : Host.Core} {x : M.State} {r : M.Fault} (h : M.step x = .fault r) (n : Nat) :
    M.run (n + 1) x = .fault r := by
  simp only [Host.Core.run, h]

/-! ### The obligations on exceptions -/

/-- Settles O33: a running core completes its step, with the code that `pc` and the bytes fetched determine. -/
theorem faultPriorityOfAStep : Obligations.FaultPriorityOfAStep := by
  intro s hr hs
  obtain ⟨t, ht⟩ := exists_step_of_run hr
  exact ⟨t, ht, step_fault_eq ht hs⟩

/-- Settles O34: the next state is the old one with a cause raised. -/
theorem faultsArePrecise : Obligations.FaultsArePrecise := by
  intro s t h hs ht
  obtain ⟨c, rfl⟩ := eq_raise_of_step_fault h hs ht
  rfl

/-- Settles O38: raising a cause stops the core, and a stopped core answers no next state. -/
theorem faultedCoreIsStoppedForGood : Obligations.FaultedCoreIsStoppedForGood := by
  intro s t h hs ht n u
  obtain ⟨c, rfl⟩ := eq_raise_of_step_fault h hs ht
  have hstop : Sys2Proof.core.step (raise c s) = .fault Fault.coreStopped := step_stopped (raise_run s c)
  rw [run_succ_of_step_fault hstop]
  exact nofun

end Sys2Proof.Machine
end

section
/-! PROOFS. Where execution begins after reset (`70_reset_and_hazards.md`). -/

namespace Sys2Proof.Machine

/-! ### The obligation on the first fetch -/

/-- Settles O7: `pc` is 0 after a launch, inside the fetch range, and the image's cell 0 holds the program's first byte,
or the blank byte where the program is empty. -/
theorem executionBeginsAtAddressZero : Obligations.ExecutionBeginsAtAddressZero := by
  intro l s h
  obtain ⟨-, rfl⟩ := launch_cases h
  refine ⟨rfl, rfl, _, fetch_ok (Nat.zero_le 253), ?_⟩
  simp [get_ofImage, Config.memBlank]

end Sys2Proof.Machine
end
